-- ==== Sys2Proof/Word.lean ====
section
/-!
DEFINITION. The word types of the core: the Bit, the MSB-first BitVector of any length and the
32-bit command word (00_scope.md R12, R13; 30_encoding.md R70), with the plainest vector
operations of R15.
-/
namespace Sys2Proof

/-- A value of GF(2) (R12): addition is `xor`, multiplication is `and`. -/
abbrev Bit := Bool

/-- A BitVector, or Polynomial (R13): bits MSB-first, so the head is the leading coefficient and
the last element is the coefficient of degree 0. -/
abbrev Vec := List Bit

/-- A command word (R70): bit 31 most significant, bit 0 least. -/
abbrev CommandWord := BitVec 32

/-- `zeros(L)` of R15. -/
def zeros (n : Nat) : Vec := List.replicate n false

/-- `drop1(v) = v[1..len(v)-1]` of R15. -/
def drop1 (v : Vec) : Vec := v.drop 1

end Sys2Proof
end

