-- ==== Sys2Proof/Config.lean ====
section
/-!
DEFINITION. What is fixed for the machine and no command writes: the code parameters (R6, R10),
the constants G, H and LT (R7 to R9, R11), and the named parameters VLEN_MAX and TRIM_ZERO_LEN.
The spec leaves no value open (93_implementation_defined.md), so there is no free value here.
-/
namespace Sys2Proof

/-- The constants of R11, fields of a configuration so that every rule that names one of them has
a meaning for another instance too. -/
structure Config where
  /-- generator polynomial (R7) -/
  g : Vec
  /-- parity-check polynomial (R8): its only use is the invariant G·H = x^7 + 1 -/
  h : Vec
  /-- tap vector of the LFSR (R9) -/
  lt : Vec
  deriving DecidableEq, Repr

/-- This hardware's constants: G = 1011 (R7), H = 10111 (R8), LT = 10110 (R9). -/
def Config.hardware : Config where
  g := [true, false, true, true]
  h := [true, false, true, true, true]
  lt := [true, false, true, true, false]

/-- `VLEN_MAX` (R10, D3): the most bits a vector register holds. -/
def Config.vlenMax : Nat := 16

/-- `TRIM_ZERO_LEN` (R103, D11): the length of a zero remainder in trimmed mode. -/
def Config.trimZeroLen : Nat := 0

/-- Block length N, data length K and parity length P of the code (R6). -/
def Config.blockLen : Nat := 7
def Config.dataLen : Nat := 4
def Config.parityLen : Nat := Config.blockLen - Config.dataLen

end Sys2Proof
end

