-- ==== Sys2Proof/Syntax.lean ====
section
/-!
DEFINITION. The command set: one constructor per row of spec/opcode_table.json (30_encoding.md
R77). Field widths are those of the formats of R71 to R73, so a term holds exactly the values its
encoding can carry.
-/
namespace Sys2Proof

/-- A command. `len` is LEN = cw[20:16] and `bits` is BITS = cw[15:0] (R71); `tr` is the TR bit
cw[1] (R72, R76); SEL is part of the row (R75). -/
inductive Instr where
  /-- LDA: load operand register A (R90) -/
  | lda (len : BitVec 5) (bits : BitVec 16)
  /-- LDB: load operand register B (R91) -/
  | ldb (len : BitVec 5) (bits : BitVec 16)
  /-- REM.F: remainder, fixed-width mode (R107) -/
  | remF (tr : Bool)
  /-- REM.T: remainder, trimmed mode (R108) -/
  | remT (tr : Bool)
  /-- ENC: encode the DataWord in A (R122) -/
  | enc (tr : Bool)
  /-- DEC.D: decode the received word in A by direct division (R147) -/
  | decD (tr : Bool)
  /-- DEC.L: decode the received word in A by the LFSR strategy (R170) -/
  | decL (tr : Bool)
  /-- INIT: the construction step (R137) -/
  | init
  deriving DecidableEq, Repr

end Sys2Proof
end

