-- ==== Sys2Proof/WellFormed.lean ====
section
/-!
DEFINITION. Well-formedness. The checks are on command WORDS, read from the formats field by field
(R71 to R73, R79), independently of the decoder's masks (R77). A TERM of `Instr` needs no check:
its fields have the widths of the formats, and the values a rule refuses (a LEN of 17, stray BITS)
are legal to the decoder and refused by the command (R78).
-/
namespace Sys2Proof

/-- The field `OP = cw[31:28]` (R70). -/
def CommandWord.op (cw : CommandWord) : BitVec 4 := cw.extractLsb' 28 4

/-- `OP` is one of the six assigned numbers 0x1 to 0x6 (R79). -/
def CommandWord.opAssigned (cw : CommandWord) : Bool :=
  1 ≤ (CommandWord.op cw).toNat && (CommandWord.op cw).toNat ≤ 6

/-- Format L: bits 27:21 are 0 (R71). -/
def CommandWord.loadReservedClear (cw : CommandWord) : Bool := cw.extractLsb' 21 7 == 0

/-- Format O: bits 27:2 are 0 (R72). -/
def CommandWord.operateReservedClear (cw : CommandWord) : Bool := cw.extractLsb' 2 26 == 0

/-- ENC: SEL, bit 0, is 0 (R72, R75). -/
def CommandWord.encSelClear (cw : CommandWord) : Bool := !cw.getLsbD 0

/-- Format Z: bits 27:0 are 0 (R73). -/
def CommandWord.initReservedClear (cw : CommandWord) : Bool := cw.extractLsb' 0 28 == 0

/-- A command word that some row of the opcode map matches: R79 read in the positive. -/
def CommandWord.wf (cw : CommandWord) : Bool :=
  CommandWord.opAssigned cw &&
  match (CommandWord.op cw).toNat with
  | 1 => CommandWord.loadReservedClear cw
  | 2 => CommandWord.loadReservedClear cw
  | 3 => CommandWord.operateReservedClear cw
  | 4 => CommandWord.operateReservedClear cw && CommandWord.encSelClear cw
  | 5 => CommandWord.operateReservedClear cw
  | 6 => CommandWord.initReservedClear cw
  | _ => false

/-- A vector that a vector register can hold (R10, R21). -/
def Vec.fits (v : Vec) : Bool := v.length ≤ Config.vlenMax

/-- Every term is well-formed: R78, legality does not depend on field values. -/
def Instr.wf : Instr → Bool
  | .lda _ _ => true
  | .ldb _ _ => true
  | .remF _ => true
  | .remT _ => true
  | .enc _ => true
  | .decD _ => true
  | .decL _ => true
  | .init => true

end Sys2Proof
end

