-- ==== Sys2Proof/Decode.lean ====
section
/-!
DEFINITION. The decoder, from the opcode map of 30_encoding.md R77, total on all 2^32 words (R78),
and after it the encoder, from the bit patterns of the same rule.
-/
namespace Sys2Proof

/-- Why a word is rejected. -/
inductive DecodeReject where
  /-- no row of the opcode map matches (R79): executed as `raise IllegalCommand` -/
  | illegalCommand
  deriving DecidableEq, Repr

/-- One row of the opcode map: its mnemonic, mask and match, and the command it stands for. -/
structure OpcodeRow where
  mnemonic : String
  mask : CommandWord
  mtch : CommandWord
  build : CommandWord → Instr

/-- LEN = cw[20:16] (R71). -/
def lenField (cw : CommandWord) : BitVec 5 := cw.extractLsb' 16 5

/-- BITS = cw[15:0] (R71). -/
def bitsField (cw : CommandWord) : BitVec 16 := cw.extractLsb' 0 16

/-- TR = cw[1] (R72, R76). -/
def trField (cw : CommandWord) : Bool := cw.getLsbD 1

/-- The complete map (R77). -/
def opcodeRows : List OpcodeRow :=
  [ ⟨"LDA",   0xFFE00000, 0x10000000, fun cw => .lda (lenField cw) (bitsField cw)⟩,
    ⟨"LDB",   0xFFE00000, 0x20000000, fun cw => .ldb (lenField cw) (bitsField cw)⟩,
    ⟨"REM.F", 0xFFFFFFFD, 0x30000000, fun cw => .remF (trField cw)⟩,
    ⟨"REM.T", 0xFFFFFFFD, 0x30000001, fun cw => .remT (trField cw)⟩,
    ⟨"ENC",   0xFFFFFFFD, 0x40000000, fun cw => .enc (trField cw)⟩,
    ⟨"DEC.D", 0xFFFFFFFD, 0x50000000, fun cw => .decD (trField cw)⟩,
    ⟨"DEC.L", 0xFFFFFFFD, 0x50000001, fun cw => .decL (trField cw)⟩,
    ⟨"INIT",  0xFFFFFFFF, 0x60000000, fun _ => .init⟩ ]

/-- `(cw & mask) == match` (R77). -/
def rowMatches (cw : CommandWord) (r : OpcodeRow) : Bool := cw &&& r.mask == r.mtch

/-- Decoding (R78): exactly one row matches and gives the command, or the word is illegal. It looks
at no register. -/
def decode (cw : CommandWord) : Except DecodeReject Instr :=
  match opcodeRows.filter (rowMatches cw) with
  | [r] => .ok (r.build cw)
  | _ => .error .illegalCommand

/-- Format L: OP, seven zeros, LEN, BITS (R71). -/
def formatL (op : BitVec 4) (len : BitVec 5) (bits : BitVec 16) : CommandWord :=
  op ++ 0#7 ++ len ++ bits

/-- Format O: OP, twenty-six zeros, TR, SEL (R72). -/
def formatO (op : BitVec 4) (tr sel : Bool) : CommandWord :=
  op ++ 0#26 ++ BitVec.ofBool tr ++ BitVec.ofBool sel

/-- Format Z: OP, twenty-eight zeros (R73). -/
def formatZ (op : BitVec 4) : CommandWord := op ++ 0#28

/-- The command word of a command: OP numbers of R71 to R73, SEL of R75. -/
def encode : Instr → CommandWord
  | .lda len bits => formatL 0x1 len bits
  | .ldb len bits => formatL 0x2 len bits
  | .remF tr => formatO 0x3 tr false
  | .remT tr => formatO 0x3 tr true
  | .enc tr => formatO 0x4 tr false
  | .decD tr => formatO 0x5 tr false
  | .decL tr => formatO 0x5 tr true
  | .init => formatZ 0x6

/-- The command word whose low `nbits` bits are those of `w` and whose other bits are 0. -/
def tableWord (nbits w : Nat) : CommandWord := BitVec.ofNat 32 (w % 2 ^ nbits)

/-- What the decoder reads from a row of spec/opcode_table.json with bits `w`. Every command is one
32-bit word (R70), so more than 32 bits are no command. -/
def decodeTableWord (nbits w : Nat) : Option Instr :=
  if nbits ≤ 32 then (decode (tableWord nbits w)).toOption else none

end Sys2Proof
end

