-- ==== Sys2Proof/Machine/State.lean ====
section
/-!
DEFINITION. The state of the core: exactly the registers of 10_state.md R20, and two fields of the
model's own, the trace port's event list (R37) and the host's pending actions (00_scope.md R17,
R18). The reasons a step can stop, and the state after reset (R38).
-/
namespace Sys2Proof.Machine

/-- The terminal states of the decode state machine and its initial one (R26, R148): the four
values of the 2-bit register OUTCOME. -/
inductive DecodeState where
  | received
  | noError
  | corrected
  | uncorrectable
  deriving DecidableEq, Repr

/-- The error kinds a command can raise (R201); `errCode` gives their numbers. -/
inductive ErrorKind where
  | invalidInputLength
  | invalidInputAlphabet
  | syndromeTableConstructionFault
  | notInitialised
  | alreadyInitialised
  | invalidDivisor
  | illegalCommand
  deriving DecidableEq, Repr

/-- An entry of the syndrome table: valid bit and position, 4 bits (R33, R50). -/
structure Entry where
  v : Bool
  pos : BitVec 3
  deriving DecidableEq, Repr

/-- The syndrome table as a memory (20_memory.md R50): a list of cells in one canonical form. An
address is a syndrome, 0 to 7. A cell's byte holds the 4-bit entry `{v, pos}` zero-extended; an
address that is not listed reads as 0, the invalid entry (log entry 6). -/
abbrev Memory := List Host.Cell

/-- The canonical form: addresses strictly rising and below 8, every byte a nonzero 4-bit entry. -/
abbrev Memory.wf (m : Memory) : Bool :=
  decide (m.Pairwise fun x y => x.1 < y.1) &&
    m.all fun c => decide (c.1 < 8) && decide (c.2 ≠ 0#8) && decide (c.2.toNat < 16)

/-- A step record of the division trace (R110). -/
structure StepRecord where
  offset : Nat
  lead : Bit
  before : Vec
  after : Vec
  deriving DecidableEq, Repr

/-- What the host can do to the core between commands, other than read (R18). -/
inductive HostAction where
  /-- issue a command word -/
  | issue (cw : CommandWord)
  /-- assert reset (R230) -/
  | reset
  deriving DecidableEq, Repr

/-- The architectural state, named as in R20 in lower case, and the model's two own fields. -/
structure State where
  /-- `A`, first operand register (R21): `A.len` is the length of the list -/
  a : Vec
  /-- `B`, second operand register (R22) -/
  b : Vec
  /-- `Q`, result register (R23) -/
  q : Vec
  /-- `OUTCOME` (R26) -/
  outcome : DecodeState
  /-- `POS` (R27) -/
  pos : BitVec 3
  /-- `SYN` (R28) -/
  syn : BitVec 4
  /-- `ERR` (R29) -/
  err : BitVec 4
  /-- `READY` (R30) -/
  ready : Bool
  /-- `FATAL` (R31) -/
  fatal : Bool
  /-- `TAB` (R33) -/
  tab : Memory
  /-- `LREF` (R34) -/
  lref : BitVec 4
  /-- every record the trace port has emitted, oldest first; no rule reads it (R37) -/
  trace : List StepRecord
  /-- the host's actions still to come, first one first (R17; log entry 1) -/
  host : List HostAction
  deriving DecidableEq, Repr

/-- Reasons to stop with a fault: there are none. An error of this core is a refused command that
reports a code in ERR and goes on (R200, R212); no step of the model answers a fault. -/
inductive Fault
  deriving DecidableEq, Repr

/-- Reasons to refuse. -/
inductive Refusal where
  /-- raised by an arm of `exec` whose instruction has no meaning yet (none at present): safe -/
  | notModelled (mnemonic : String)
  deriving DecidableEq, Repr

/-- The three outcomes of a step of this machine. -/
abbrev Result := Host.Outcome State Fault Refusal

/-- The state after reset (R38, R230): every register at the value the spec gives it. The model's
own fields are empty: nothing emitted, nothing pending. -/
def State.reset : State where
  a := []
  b := []
  q := []
  outcome := .received
  pos := 7
  syn := 0
  err := 0
  ready := false
  fatal := false
  tab := []
  lref := 0
  trace := []
  host := []

end Sys2Proof.Machine
end

