-- ==== Sys2Proof/Machine/Vectors.lean ====
section
/-!
DEFINITION. The vector operations of 00_scope.md R14 and R15.
-/
namespace Sys2Proof.Machine

/-- `uint(v)`: the vector read as an unsigned integer, leading element most significant (R14). -/
def uint : Vec → Nat
  | [] => 0
  | b :: v => b.toNat * 2 ^ v.length + uint v

/-- `vec(x, L)`: element i is bit L-1-i of x (R14, R74). R14 defines it for `x < 2^L`; for a larger x
the model takes the low L bits (DESIGN CHOICE, log entry 17). -/
def vec (x : Nat) : Nat → Vec
  | 0 => []
  | n + 1 => x.testBit n :: vec x n

/-- `v[i]` (R13); an index outside the vector, which no rule uses, reads 0 (log entry 9). -/
def bitAt (v : Vec) (i : Nat) : Bit := v.getD i false

/-- `flip(v, p)`: element p replaced by its complement (R15); p outside v changes nothing
(log entry 7). -/
def flipAt (v : Vec) (p : Nat) : Vec := v.modify p not

/-- `unit(p)`: 7 bits, all zero except a 1 at p (R15, R130). For p from 7 on, which is no position of
a 7-bit vector, the model takes the all-zero vector (DESIGN CHOICE, log entry 18). -/
def unitVec (p : Nat) : Vec := (zeros Config.blockLen).set p true

/-- The divisor XORed into the high-order window: the first `len d` elements (R100). -/
def xorWindow : Vec → Vec → Vec
  | x :: w, y :: d => (x ^^ y) :: xorWindow w d
  | w, [] => w
  | [], _ :: _ => []

end Sys2Proof.Machine
end

