-- ==== Sys2Proof/Machine/Ops.lean ====
section
/-!
DEFINITION. The named operations over registers and the syndrome table. `raise` is this core's one
way of taking an exception (60_exceptions.md R200). There is no return beside it: nothing is saved,
control goes nowhere, and the next command overwrites ERR (R212).
-/
namespace Sys2Proof.Machine

/-- The codes of R201; 0 is OK, 8 to 15 are never written. -/
def errCode : ErrorKind → BitVec 4
  | .invalidInputLength => 1
  | .invalidInputAlphabet => 2
  | .syndromeTableConstructionFault => 3
  | .notInitialised => 4
  | .alreadyInitialised => 5
  | .invalidDivisor => 6
  | .illegalCommand => 7

/-- `raise E`: ERR takes the code, nothing else changes (R200). -/
def raise (e : ErrorKind) (s : State) : State := { s with err := errCode e }

/-- `ERR <- 0`, the last line of every command that completes (R29). -/
def complete (s : State) : State := { s with err := 0 }

/-- `A <- v` (R16). -/
def writeA (v : Vec) (s : State) : State := { s with a := v }

/-- `B <- v`. -/
def writeB (v : Vec) (s : State) : State := { s with b := v }

/-- `Q <- v`. -/
def writeQ (v : Vec) (s : State) : State := { s with q := v }

/-- `LREF <- x`, `READY <- 1`: the end of a successful construction (R137). -/
def markReady (lref : BitVec 4) (s : State) : State := { s with lref := lref, ready := true }

/-- `FATAL <- 1` (R134). -/
def markFatal (s : State) : State := { s with fatal := true }

/-- Emission on the trace port (R76, R110): with TR = 1 the records are appended to what was
emitted before, with TR = 0 nothing is. -/
def emit (tr : Bool) (recs : List StepRecord) (s : State) : State :=
  { s with trace := s.trace ++ if tr then recs else [] }

/-- The entry `{v: 0, pos: 0}` (R134). -/
def Entry.invalid : Entry := ⟨false, 0⟩

/-- An entry as the low four bits of a cell: `{v, pos[2:0]}` (R50). -/
def entryByte (e : Entry) : BitVec 8 := 0#4 ++ BitVec.ofBool e.v ++ e.pos

/-- The entry a cell holds. -/
def byteEntry (b : BitVec 8) : Entry := ⟨b.getLsbD 3, b.extractLsb' 0 3⟩

/-- The cell at an address; an unlisted one reads 0. -/
def cellRead : Memory → Nat → BitVec 8
  | [], _ => 0
  | (k, b) :: m, x => if k = x then b else cellRead m x

/-- A cell put in its place by address. -/
def cellInsert (x : Nat) (b : BitVec 8) : Memory → Memory
  | [] => [(x, b)]
  | (k, c) :: m => if x < k then (x, b) :: (k, c) :: m else (k, c) :: cellInsert x b m

/-- The cell at an address replaced; writing what an unlisted address reads as removes it. -/
def cellWrite (m : Memory) (x : Nat) (b : BitVec 8) : Memory :=
  let others := m.filter fun c => c.1 ≠ x
  if b = 0 then others else cellInsert x b others

/-- `MemRead(s, 1)`: the entry `TAB[s]` (R50). -/
def memRead (m : Memory) (s : BitVec 3) : Entry := byteEntry (cellRead m s.toNat)

/-- `MemWrite(s, 1, e)`: `TAB[s] <- e` (R50). -/
def memWrite (m : Memory) (s : BitVec 3) (e : Entry) : Memory :=
  cellWrite m s.toNat (entryByte e)

/-- The addresses 0 to 7 in the order the loops of R131, R134 and R137 visit them. -/
def tabAddresses : List (BitVec 3) := [0, 1, 2, 3, 4, 5, 6, 7]

/-- `for s in 0..7: m[s] <- f(s)`. -/
def fillTable (f : BitVec 3 → Entry) (m : Memory) : Memory :=
  tabAddresses.foldl (fun m k => memWrite m k (f k)) m

/-- `for s in 0..7: TAB[s] <- T[s]` (R137). -/
def copyTable (t : Memory) (s : State) : State := { s with tab := fillTable (memRead t) s.tab }

/-- `for s in 0..7: TAB[s] <- {v: 0, pos: 0}` (R134). -/
def eraseTable (s : State) : State := { s with tab := fillTable (fun _ => Entry.invalid) s.tab }

end Sys2Proof.Machine
end

