-- ==== Sys2Proof/Machine/Operands.lean ====
section
/-!
DEFINITION. The operand forms and the checks on them: the immediate vector of a load (R74, R92),
the divisor in B (R109), and the operand in A behind the construction gate (R205, R206, R211).
-/
namespace Sys2Proof.Machine

/-- `load_check(LEN, BITS)` (R92): length before alphabet. -/
def loadCheck (len bits : Nat) : Except ErrorKind Vec :=
  if len > Config.vlenMax then .error .invalidInputLength
  else if bits ≥ 2 ^ len then .error .invalidInputAlphabet
  else .ok (vec bits len)

/-- `divisor_ok(B)` (R109): B is not empty and its leading element is 1. -/
def divisorOk (d : Vec) : Bool := decide (1 ≤ d.length) && bitAt d 0

/-- The tests of ENC, DEC.D and DEC.L in their order (R211): FATAL, then READY, then the length of
A against the length the command needs. -/
def codecCheck (need : Nat) (s : State) : Option ErrorKind :=
  if s.fatal then some .syndromeTableConstructionFault
  else if !s.ready then some .notInitialised
  else if s.a.length ≠ need then some .invalidInputLength
  else none

/-- The two tests INIT makes before it builds (R137, R211): FATAL, then READY. -/
def initCheck (s : State) : Option ErrorKind :=
  if s.fatal then some .syndromeTableConstructionFault
  else if s.ready then some .alreadyInitialised
  else none

end Sys2Proof.Machine
end

