-- ==== Sys2Proof/Machine/Flags.lean ====
section
/-!
DEFINITION. The status fields a decode writes (R26 to R28, R147, R170).
-/
namespace Sys2Proof.Machine

/-- The outcome of a decode (§6 of the source, R146): the three terminal states with the position
of a correction. -/
inductive Verdict where
  | noError
  | corrected (p : BitVec 3)
  | uncorrectable
  deriving DecidableEq, Repr

/-- What a decode returns: the corrected word, the outcome and the strategy's own syndrome in 4
bits. -/
structure Decoded where
  word : Vec
  verdict : Verdict
  syndrome : BitVec 4
  deriving DecidableEq, Repr

/-- OUTCOME after a decode: never Received (R26). -/
def verdictState : Verdict → DecodeState
  | .noError => .noError
  | .corrected _ => .corrected
  | .uncorrectable => .uncorrectable

/-- POS after a decode: the position of a correction, else 7, which is no position (R27). -/
def verdictPos : Verdict → BitVec 3
  | .noError => 7
  | .corrected p => p
  | .uncorrectable => 7

/-- The encoding of OUTCOME in two bits (R26). -/
def outcomeCode : DecodeState → BitVec 2
  | .received => 0
  | .noError => 1
  | .corrected => 2
  | .uncorrectable => 3

/-- The one atomic update of a decode that completes: Q, OUTCOME, POS, SYN and, by `complete`, ERR
(R148). -/
def writeDecoded (d : Decoded) (s : State) : State :=
  { s with q := d.word, outcome := verdictState d.verdict, pos := verdictPos d.verdict,
           syn := d.syndrome }

end Sys2Proof.Machine
end

