-- ==== Sys2Proof/Machine/Remainder.lean ====
section
/-!
DEFINITION. The remainder engine (41_remainder.md) and the commands REM.F and REM.T.
-/
namespace Sys2Proof.Machine

/-- The working dividend after the conditional XOR of one iteration (R100). -/
def divXor (w d : Vec) : Vec := if bitAt w 0 then xorWindow w d else w

/-- The loop of R100 from the working dividend `w` at iteration `i`: the remainder and the step
records emitted (R110). The fuel bounds the number of iterations. An empty working dividend can
meet the loop's test only under an empty divisor, with which no rule calls it (R101, log entry 8). -/
def divLoop (d : Vec) : Nat → Nat → Vec → Vec × List StepRecord
  | 0, _, w => (w, [])
  | fuel + 1, i, w =>
    if w.length < d.length || w.isEmpty then (w, [])
    else
      let after := divXor w d
      let rest := divLoop d fuel (i + 1) (drop1 after)
      (rest.1, ⟨i, bitAt w 0, w, after⟩ :: rest.2)

/-- `rem_raw(a, d)` (R100): each iteration drops one bit, so `len a` iterations are enough. -/
def remRaw (a d : Vec) : Vec := (divLoop d a.length 0 a).1

/-- The step records of that division, in iteration order (R110). -/
def remTrace (a d : Vec) : List StepRecord := (divLoop d a.length 0 a).2

/-- `rem_fixed(a, d)` (R102): left-padded with zeros to length `len d - 1`. -/
def remFixed (a d : Vec) : Vec :=
  zeros (d.length - 1 - (remRaw a d).length) ++ remRaw a d

/-- `rem_trim(a, d)` (R103): every leading 0 removed. -/
def remTrim (a d : Vec) : Vec := (remRaw a d).dropWhile not

/-- The template both REM commands share (R107, R108): the divisor check, then the division of A by
B in the given mode, traced if TR = 1. -/
def remWith (mode : Vec → Vec → Vec) (tr : Bool) (s : State) : State :=
  if divisorOk s.b then complete (writeQ (mode s.a s.b) (emit tr (remTrace s.a s.b) s))
  else raise .invalidDivisor s

/-- REM.F (R107). -/
def execRemF (tr : Bool) (s : State) : Result := .next (remWith remFixed tr s)

/-- REM.T (R108). -/
def execRemT (tr : Bool) (s : State) : Result := .next (remWith remTrim tr s)

end Sys2Proof.Machine
end

