-- ==== Sys2Proof/Machine/DirectDecoder.lean ====
section
/-!
DEFINITION. The direct-division decoder and the command DEC.D (44_decode_direct.md).
-/
namespace Sys2Proof.Machine

/-- The direct syndrome `dsyn(v)` (R145), a 3-bit number and an address of TAB. -/
def dsyn (g v : Vec) : BitVec 3 := BitVec.ofNat 3 (uint (remFixed v g))

/-- `decode_direct(received)` (R146), for a table. -/
def decodeDirect (g : Vec) (tab : Memory) (received : Vec) : Decoded :=
  let s := dsyn g received
  if s = 0 then ⟨received, .noError, s.setWidth 4⟩
  else
    let e := memRead tab s
    if e.v then ⟨flipAt received e.pos.toNat, .corrected e.pos, s.setWidth 4⟩
    else ⟨received, .uncorrectable, s.setWidth 4⟩

/-- DEC.D under a configuration (R147). -/
def decDStep (c : Config) (tr : Bool) (s : State) : State :=
  match codecCheck Config.blockLen s with
  | some e => raise e s
  | none =>
    complete (writeDecoded (decodeDirect c.g s.tab s.a) (emit tr (remTrace s.a c.g) s))

/-- DEC.D (R147). -/
def execDecD (tr : Bool) (s : State) : Result := .next (decDStep Config.hardware tr s)

end Sys2Proof.Machine
end

