-- ==== Sys2Proof/Machine/Encoder.lean ====
section
/-!
DEFINITION. The cyclic encoder and the command ENC (42_encoder.md).
-/
namespace Sys2Proof.Machine

/-- `shifted = data ‖ [0,0,0]` (R120). -/
def shifted (data : Vec) : Vec := data ++ zeros Config.parityLen

/-- `encode(data)` (R120): the first four elements of `shifted`, then the last three with the
parity XORed in. -/
def encodeWord (g data : Vec) : Vec :=
  (shifted data).take Config.dataLen ++
    xorWindow ((shifted data).drop Config.dataLen) (remFixed (shifted data) g)

/-- ENC under a configuration (R122). -/
def encStep (c : Config) (tr : Bool) (s : State) : State :=
  match codecCheck Config.dataLen s with
  | some e => raise e s
  | none =>
    complete (writeQ (encodeWord c.g s.a) (emit tr (remTrace (shifted s.a) c.g) s))

/-- ENC (R122). -/
def execEnc (tr : Bool) (s : State) : Result := .next (encStep Config.hardware tr s)

end Sys2Proof.Machine
end

