-- ==== Sys2Proof/Machine/LfsrDecoder.lean ====
section
/-!
DEFINITION. The LFSR, its search, and the command DEC.L (45_decode_lfsr.md).
-/
namespace Sys2Proof.Machine

/-- The step function `lstep(r, b)` for tap vector `lt` (R161); `lt[0]` is the feedback connection
and is read by nothing. -/
def lstep (lt r : Vec) (b : Bit) : Vec :=
  let fb := b ^^ bitAt r 0
  [ bitAt r 1 ^^ (fb && bitAt lt 1),
    bitAt r 2 ^^ (fb && bitAt lt 2),
    bitAt r 3 ^^ (fb && bitAt lt 3),
    fb && bitAt lt 4 ]

/-- `lsyn(v)` (R162): the register from all-zero, the word's bits most significant first. -/
def lsyn (lt v : Vec) : Vec := v.foldl (lstep lt) (zeros 4)

/-- The free-running transition (R166). -/
def lfree (lt r : Vec) : Vec := lstep lt r false

/-- The comparisons of the search from `cur` at step count `i`, `n` of them left (R167). -/
def locateFrom (lt syn : Vec) : Nat → Nat → Vec → Option Nat
  | 0, _, _ => none
  | n + 1, i, cur => if cur = syn then some i else locateFrom lt syn n (i + 1) (lfree lt cur)

/-- `locate(syn)` (R167): seven comparisons, step counts 0 to 6 from the reference. -/
def locate (lt : Vec) (lref : BitVec 4) (syn : Vec) : Option Nat :=
  locateFrom lt syn 7 0 (vec lref.toNat 4)

/-- `decode_lfsr(received)` (R169); a step count `i` is position `6 - i` (R168). -/
def decodeLfsr (lt : Vec) (lref : BitVec 4) (received : Vec) : Decoded :=
  let syn := lsyn lt received
  let y := BitVec.ofNat 4 (uint syn)
  if syn = zeros 4 then ⟨received, .noError, y⟩
  else
    match locate lt lref syn with
    | some i => ⟨flipAt received (6 - i), .corrected (BitVec.ofNat 3 (6 - i)), y⟩
    | none => ⟨received, .uncorrectable, y⟩

/-- DEC.L under a configuration (R170): no division, so no trace even with TR = 1 (R113). -/
def decLStep (c : Config) (_tr : Bool) (s : State) : State :=
  match codecCheck Config.blockLen s with
  | some e => raise e s
  | none => complete (writeDecoded (decodeLfsr c.lt s.lref s.a) s)

/-- DEC.L (R170). -/
def execDecL (tr : Bool) (s : State) : Result := .next (decLStep Config.hardware tr s)

end Sys2Proof.Machine
end

