-- ==== Sys2Proof/Machine/Load.lean ====
section
/-!
DEFINITION. The operand load commands LDA and LDB (40_operand_load.md). They test neither READY nor
FATAL (R93).
-/
namespace Sys2Proof.Machine

/-- The template both loads share: the load check, then the write of the register (R90, R91). -/
def loadWith (write : Vec → State → State) (len : BitVec 5) (bits : BitVec 16) (s : State) :
    State :=
  match loadCheck len.toNat bits.toNat with
  | .error e => raise e s
  | .ok v => complete (write v s)

/-- LDA (R90). -/
def execLda (len : BitVec 5) (bits : BitVec 16) (s : State) : Result :=
  .next (loadWith writeA len bits s)

/-- LDB (R91). -/
def execLdb (len : BitVec 5) (bits : BitVec 16) (s : State) : Result :=
  .next (loadWith writeB len bits s)

end Sys2Proof.Machine
end

