-- ==== Sys2Proof/Machine/TableBuilder.lean ====
section
/-!
DEFINITION. The syndrome table builder and the command INIT (43_table_init.md).
-/
namespace Sys2Proof.Machine

/-- One iteration of the builder: `T[syndrome of unit(p)] = p` (R131). -/
def recordPosition (g : Vec) (t : Memory) (p : Nat) : Memory :=
  memWrite t (dsyn g (unitVec p)) ⟨true, BitVec.ofNat 3 p⟩

/-- `build_table(G)` (R131): from all entries invalid, positions 0 to 6 ascending, a later one
overwriting an earlier. -/
def buildTable (g : Vec) : Memory :=
  (List.range Config.blockLen).foldl (recordPosition g) []

/-- The keys of a table: the addresses whose entry is valid (R132). -/
def tableKeys (t : Memory) : List (BitVec 3) := tabAddresses.filter fun k => (memRead t k).v

/-- The values of a table: the positions of its keys (R132). -/
def tableValues (t : Memory) : List (BitVec 3) := (tableKeys t).map fun k => (memRead t k).pos

/-- `table_ok(T)` (R132): seven keys, and the value set is exactly 0 to 6. -/
def tableOk (t : Memory) : Bool :=
  (tableKeys t).length == 7 &&
    tabAddresses.all fun p => decide (p ∈ tableValues t) == decide (p ≠ 7)

/-- The reference syndrome `uint(lsyn(unit(6)))` (R135, R165). -/
def reference (lt : Vec) : BitVec 4 := BitVec.ofNat 4 (uint (lsyn lt (unitVec 6)))

/-- INIT under a configuration (R137): the two tests, the build, the check, then either the
construction fault with its three effects (R134) or the completed construction. -/
def initStep (c : Config) (s : State) : State :=
  match initCheck s with
  | some e => raise e s
  | none =>
    if tableOk (buildTable c.g) then
      complete (markReady (reference c.lt) (copyTable (buildTable c.g) s))
    else raise .syndromeTableConstructionFault (markFatal (eraseTable s))

/-- INIT (R137). -/
def execInit (s : State) : Result := .next (initStep Config.hardware s)

end Sys2Proof.Machine
end

