-- ==== Sys2Proof/Machine/Dispatch.lean ====
section
/-! DEFINITION. One arm per command: each is one call of its meaning. -/

namespace Sys2Proof.Machine

def exec (i : Instr) (s : State) : Host.Outcome State Fault Refusal :=
  match i with
  | .lda len bits => Sys2Proof.Machine.execLda len bits s
  | .ldb len bits => Sys2Proof.Machine.execLdb len bits s
  | .remF tr => Sys2Proof.Machine.execRemF tr s
  | .remT tr => Sys2Proof.Machine.execRemT tr s
  | .enc tr => Sys2Proof.Machine.execEnc tr s
  | .decD tr => Sys2Proof.Machine.execDecD tr s
  | .decL tr => Sys2Proof.Machine.execDecL tr s
  | .init => Sys2Proof.Machine.execInit s

end Sys2Proof.Machine
end

