-- ==== Sys2Proof/Machine/Port.lean ====
section
/-!
DEFINITION. The command port: what each host action does to the core (00_scope.md R17, R18).
-/
namespace Sys2Proof.Machine

/-- A command word reaches the idle core: it is decoded and executed completely (R17, R78); an
illegal word is executed as `raise IllegalCommand` (R79, R209). -/
def acceptWord (cw : CommandWord) (s : State) : Result :=
  match decode cw with
  | .ok i => exec i s
  | .error .illegalCommand => .next (raise .illegalCommand s)

/-- Reset (R230): every register at its reset value. What the trace port has emitted stays emitted
and the host's later actions are still to come (log entry 3). -/
def assertReset (s : State) : State := { State.reset with trace := s.trace, host := s.host }

/-- No action pending: the core waits and keeps all state (R215, R230). -/
def idle (s : State) : State := s

/-- The host issues a word ahead of whatever else it has pending. -/
def issueFirst (cw : CommandWord) (s : State) : State :=
  { s with host := .issue cw :: s.host }

end Sys2Proof.Machine
end

