-- ==== Sys2Proof/Machine/Step.lean ====
section
/-!
DEFINITION. One step: the core takes the host's next action (R17, R18), or waits.
-/
namespace Sys2Proof.Machine

/-- One step. The action is taken off the host's list before it acts. -/
def step (s : State) : Host.Outcome State Fault Refusal :=
  match s.host with
  | [] => .next (idle s)
  | .issue cw :: rest => acceptWord cw { s with host := rest }
  | .reset :: rest => .next (assertReset { s with host := rest })

/-- `s` with the given command word as the host's next action. The core fetches nothing (R25): a
command word is consumed when issued, so the place the next one comes from is the host. -/
def State.withFetchWord (s : State) (nbits w : Nat) : State := issueFirst (tableWord nbits w) s

end Sys2Proof.Machine
end

