-- ==== Sys2Proof/Machine/Assembler.lean ====
section
/-!
DEFINITION. The textual form of the commands (30_encoding.md R80) and the bit-string
pseudo-instructions (R81): a line of text to its command word. This stands on the host's side of the
command port; the core never sees text. Numbers are decimal, or hexadecimal after 0x (log entry 12).
-/
namespace Sys2Proof.Machine

/-- What a character stands for in a number of a base: the value, below the base, whose digit it is.
A letter counts in either case (log entry 12). -/
def digitOf (base : Nat) (c : Char) : Option Nat :=
  (List.range base).find? fun d => Nat.digitChar d == c.toLower

/-- The number that further digits make of the value read before them. -/
def digitsFrom (base : Nat) : Nat → List Char → Option Nat
  | n, [] => some n
  | n, c :: rest => (digitOf base c).bind fun d => digitsFrom base (n * base + d) rest

/-- A decimal number: one digit or more. -/
def decimal (cs : List Char) : Option Nat := if cs.isEmpty then none else digitsFrom 10 0 cs

/-- A number: decimal, or hexadecimal after `0x`. -/
def number : List Char → Option Nat
  | '0' :: 'x' :: c :: cs => digitsFrom 16 0 (c :: cs)
  | cs => decimal cs

/-- What has been gathered of a token, if anything. -/
def pendingToken (cs : List Char) : List (List Char) := if cs.isEmpty then [] else [cs]

/-- The tokens of a line: runs of characters between blanks, and each comma on its own. -/
def tokensFrom (acc : List Char) : List Char → List (List Char)
  | [] => pendingToken acc
  | c :: cs =>
    if c = ' ' ∨ c = '\t' then pendingToken acc ++ tokensFrom [] cs
    else if c = ',' then pendingToken acc ++ [','] :: tokensFrom [] cs
    else tokensFrom (acc ++ [c]) cs

/-- The double quote. -/
def quoteChar : Char := Char.ofNat 34

/-- The characters between the two quotes of a token, if it is quoted. -/
def unquote : List Char → Option (List Char)
  | [] => none
  | c :: cs => if c = quoteChar ∧ cs.getLast? = some quoteChar then some cs.dropLast else none

/-- The vector a bit string names (R81): only 0 and 1, at most 16 of them. -/
def bitString (cs : List Char) : Option Vec :=
  if cs.length ≤ Config.vlenMax ∧ cs.all (fun c => c = '0' || c = '1') then
    some (cs.map fun c => decide (c = '1'))
  else none

/-- The base word of a load mnemonic (R80). -/
def loadBase (m : List Char) : Option Nat :=
  if m = ['L', 'D', 'A'] then some 0x10000000
  else if m = ['L', 'D', 'B'] then some 0x20000000
  else none

/-- The word of a mnemonic on its own (R80). -/
def plainWord (m : List Char) : Option Nat :=
  if m = ['R', 'E', 'M', '.', 'F'] then some 0x30000000
  else if m = ['R', 'E', 'M', '.', 'T'] then some 0x30000001
  else if m = ['E', 'N', 'C'] then some 0x40000000
  else if m = ['D', 'E', 'C', '.', 'D'] then some 0x50000000
  else if m = ['D', 'E', 'C', '.', 'L'] then some 0x50000001
  else if m = ['I', 'N', 'I', 'T'] then some 0x60000000
  else none

/-- The word of a mnemonic followed by TRACE (R80): INIT has no such form. -/
def tracedWord (m : List Char) : Option Nat :=
  if m = ['I', 'N', 'I', 'T'] then none else (plainWord m).map (· + 2)

/-- `base | (len << 16) | field`, for LEN 0 to 31 and a 16-bit field (R80). -/
def loadWord (base len field : Nat) : Option Nat :=
  if len ≤ 31 ∧ field < 65536 then some (base ||| len <<< 16 ||| field) else none

/-- The two-token forms: a traced command, a raw word, or a load of a bit string (R80, R81). -/
def asmPair (m x : List Char) : Option Nat :=
  if x = ['T', 'R', 'A', 'C', 'E'] then tracedWord m
  else if m = ['.', 'w', 'o', 'r', 'd'] then (number x).filter (· < 2 ^ 32)
  else do
    let base ← loadBase m
    let cs ← unquote x
    let v ← bitString cs
    loadWord base v.length (uint v)

/-- The word of a line's tokens. -/
def asmTokens : List (List Char) → Option Nat
  | [m] => plainWord m
  | [m, x] => asmPair m x
  | [m, l, sep, f] =>
    if sep = [','] then do
      let base ← loadBase m
      let len ← decimal l
      let field ← number f
      loadWord base len field
    else none
  | _ => none

/-- A line of text, less its comment, to its command word; none if it is no command. -/
def asmLine (text : List Char) : Option CommandWord :=
  (asmTokens (tokensFrom [] (text.takeWhile (· ≠ ';')))).map (BitVec.ofNat 32)

end Sys2Proof.Machine
end

