-- ==== Sys2Proof/Machine/View.lean ====
section
/-!
DEFINITION. What the host and the trace consumer see: the bus value of a vector register (R24), the
read-only STATUS view (R32), the packed trace record (R112) and what a host reads of all registers
(R18). None of it is separate state.
-/
namespace Sys2Proof.Machine

/-- The 21-bit value `{len[4:0], field[15:0]}` of a vector register (R24). -/
def vecBus (v : Vec) : BitVec 21 := BitVec.ofNat 5 v.length ++ BitVec.ofNat 16 (uint v)

/-- STATUS (R32), from bit 15 down: reserved 0, SYN, POS, OUTCOME, FATAL, READY, ERR. -/
def status (s : State) : BitVec 16 :=
  0#1 ++ s.syn ++ s.pos ++ outcomeCode s.outcome ++ BitVec.ofBool s.fatal ++
    BitVec.ofBool s.ready ++ s.err

/-- A step record on the trace port (R112), from bit 41 down: offset, lead, len, before, after. -/
def packRecord (r : StepRecord) : BitVec 42 :=
  BitVec.ofNat 4 r.offset ++ BitVec.ofBool r.lead ++ BitVec.ofNat 5 r.before.length ++
    BitVec.ofNat 16 (uint r.before) ++ BitVec.ofNat 16 (uint r.after)

/-- The registers the host reads between commands (R18, R20): A, B and Q on the bus (R24), the status
fields as STATUS (R32), and LREF (log entry 19). TAB is not among them: the host cannot read an entry
(R50). -/
structure HostView where
  a : BitVec 21
  b : BitVec 21
  q : BitVec 21
  status : BitVec 16
  lref : BitVec 4
  deriving DecidableEq, Repr

/-- One host read of every host-visible register; it changes nothing. -/
def hostView (s : State) : HostView where
  a := vecBus s.a
  b := vecBus s.b
  q := vecBus s.q
  status := status s
  lref := s.lref

end Sys2Proof.Machine
end

