-- ==== Sys2Proof/Safety.lean ====
section
/-!
DEFINITION. The terms claims are stated in: what a coherent state of this hardware is, what a valid
codeword is, how far two words differ, and the polynomial a vector stands for (00_scope.md R13).
-/
namespace Sys2Proof.Machine

/-- The table of 43_table_init.md R133 and 20_memory.md R52, by address. -/
def tableImage (k : BitVec 3) : Entry :=
  match k.toNat with
  | 1 => ⟨true, 6⟩
  | 2 => ⟨true, 5⟩
  | 3 => ⟨true, 3⟩
  | 4 => ⟨true, 4⟩
  | 5 => ⟨true, 0⟩
  | 6 => ⟨true, 2⟩
  | 7 => ⟨true, 1⟩
  | _ => ⟨false, 0⟩

/-- What every step record satisfies (R110): it shows a non-empty working dividend of a register,
its leading bit, and a dividend of the same length whose leading bit is cleared. -/
def StepRecord.wf (r : StepRecord) : Prop :=
  1 ≤ r.before.length ∧ r.offset + r.before.length ≤ Config.vlenMax ∧
    r.after.length = r.before.length ∧ r.lead = bitAt r.before 0 ∧ bitAt r.after 0 = false

/-- OUTCOME, POS and SYN together (R26 to R28): before any decode Received, 7 and 0; then NoError
with 7 and a zero syndrome, or Corrected with a position of a 7-bit word and a nonzero syndrome.
Uncorrectable does not occur on this hardware (R149, R172). -/
def statusFieldsAgree : DecodeState → BitVec 3 → BitVec 4 → Prop
  | .received, p, y => p = 7 ∧ y = 0
  | .noError, p, y => p = 7 ∧ y = 0
  | .corrected, p, y => p ≠ 7 ∧ y ≠ 0
  | .uncorrectable, _, _ => False

/-- A coherent state: what the spec says of every state the hardware can be in, whatever the host
has pending. -/
structure State.Coherent (s : State) : Prop where
  /-- A, B and Q fit their registers (R10, R21 to R23); no result is longer than 15 bits (R107) -/
  aFits : s.a.length ≤ Config.vlenMax
  bFits : s.b.length ≤ Config.vlenMax
  qFits : s.q.length < Config.vlenMax
  /-- ERR holds an assigned code (R201) -/
  errAssigned : s.err.toNat ≤ 7
  /-- READY and FATAL are never both 1 (R31) -/
  notBoth : ¬ (s.ready = true ∧ s.fatal = true)
  /-- the table is in canonical form -/
  tabCanonical : Memory.wf s.tab = true
  /-- while READY = 1 the table and the reference are those of R133 and R135 -/
  built : s.ready = true → (∀ k, memRead s.tab k = tableImage k) ∧ s.lref = 6
  /-- while READY = 0 there is no table and no reference (R38, R134) -/
  unbuilt : s.ready = false → s.tab = [] ∧ s.lref = 0
  /-- a decode has completed only where a construction had (R206) -/
  decodedOnlyReady : s.outcome ≠ .received → s.ready = true
  /-- the status fields agree (R26 to R28) -/
  fieldsAgree : statusFieldsAgree s.outcome s.pos s.syn
  /-- every record on the trace port is a step record -/
  traceRecords : ∀ r ∈ s.trace, r.wf

/-- A valid codeword (§3 of the source): 7 bits with zero remainder under division by G. -/
def isCodeword (v : Vec) : Prop :=
  v.length = Config.blockLen ∧ remFixed v Config.hardware.g = zeros Config.parityLen

/-- In how many positions two words of one length differ. -/
def distance (u v : Vec) : Nat := (List.zipWith xor u v).count true

/-- The state the two decoders, the encoder and INIT are gated on: construction has succeeded. -/
def State.constructed (s : State) : Prop := s.ready = true ∧ s.fatal = false

/-- The polynomial of a vector over GF(2) (R13): element i is the coefficient of x^(L-1-i). -/
noncomputable def polyOf : Vec → Polynomial (ZMod 2)
  | [] => 0
  | b :: v => (if b then Polynomial.X ^ v.length else 0) + polyOf v

end Sys2Proof.Machine
end

