-- ==== Sys2Proof/Certificates/Slice0/Obligations.lean ====
section
/-!
DEFINITION. The statements for the provers. Each docstring names the rules of spec/ it formalises;
where a clause is the model's own choice, it names the log entry.
-/

open Sys2Proof Sys2Proof.Machine

/-! ## Encoding (30_encoding.md) -/

/-- R77, R80: one word of each row, and each traced form, decodes to the command it stands for. -/
def Obligations.WrittenWordsDecode : Prop :=
  decode 0x1007005A = .ok (.lda 7 0x5A) ∧ decode 0x2004000B = .ok (.ldb 4 0xB) ∧
  decode 0x30000000 = .ok (.remF false) ∧ decode 0x30000002 = .ok (.remF true) ∧
  decode 0x30000001 = .ok (.remT false) ∧ decode 0x30000003 = .ok (.remT true) ∧
  decode 0x40000000 = .ok (.enc false) ∧ decode 0x40000002 = .ok (.enc true) ∧
  decode 0x50000000 = .ok (.decD false) ∧ decode 0x50000002 = .ok (.decD true) ∧
  decode 0x50000001 = .ok (.decL false) ∧ decode 0x50000003 = .ok (.decL true) ∧
  decode 0x60000000 = .ok .init

/-- R77, R78: the decoder gives every command back from its own word, with every field value. -/
def Obligations.DecodeInvertsEncode : Prop :=
  ∀ i : Instr, decode (encode i) = .ok i

/-- R77, R78: a legal word is the word of the command it decodes to, so no bit of it is ignored. -/
def Obligations.EncodeInvertsDecode : Prop :=
  ∀ (cw : CommandWord) (i : Instr), decode cw = .ok i → encode i = cw

/-- R77: no word matches two rows of the opcode map. -/
def Obligations.NoWordMatchesTwoRows : Prop :=
  ∀ cw : CommandWord, (opcodeRows.filter (rowMatches cw)).length ≤ 1

/-- R79: which words are illegal, by their fields, the two words it names, and their effect. -/
def Obligations.IllegalWordsAreRefused : Prop :=
  (∀ cw : CommandWord, decode cw = .error .illegalCommand ↔
    (cw.extractLsb' 28 4 = 0 ∨ 7 ≤ (cw.extractLsb' 28 4).toNat) ∨
    ((cw.extractLsb' 28 4 = 1 ∨ cw.extractLsb' 28 4 = 2) ∧ cw.extractLsb' 21 7 ≠ 0) ∨
    ((cw.extractLsb' 28 4 = 3 ∨ cw.extractLsb' 28 4 = 4 ∨ cw.extractLsb' 28 4 = 5) ∧
      cw.extractLsb' 2 26 ≠ 0) ∨
    (cw.extractLsb' 28 4 = 4 ∧ cw.getLsbD 0 = true) ∨
    (cw.extractLsb' 28 4 = 6 ∧ cw.extractLsb' 0 28 ≠ 0)) ∧
  decode 0x00000000 = .error .illegalCommand ∧ decode 0xFFFFFFFF = .error .illegalCommand ∧
  ∀ (cw : CommandWord) (s : State), decode cw = .error .illegalCommand →
    acceptWord cw s = .next { s with err := 7 }

/-! ## The step and reset (00_scope.md R17, R18; 10_state.md R38; 70_reset_and_hazards.md R230) -/

/-- R17, R78, R209: a step whose next host action is a command word runs the decoded command, or
sets ERR to 7 for an illegal word. The host's list of actions is the model's own (log entry 1). -/
def Obligations.StepRunsDecodedCommand : Prop :=
  ∀ (s : State) (cw : CommandWord) (rest : List HostAction), s.host = .issue cw :: rest →
    (∀ i, decode cw = .ok i → step s = exec i { s with host := rest }) ∧
    (decode cw = .error .illegalCommand → step s = .next { s with host := rest, err := 7 })

/-- R230: the host's reset puts every register at its reset value, from any state. That the emitted
records and the later host actions stay is the model's choice (log entries 1 and 3). -/
def Obligations.ResetActionRestoresRegisters : Prop :=
  ∀ (s : State) (rest : List HostAction), s.host = .reset :: rest →
    ∃ t, step s = .next t ∧ t.a = [] ∧ t.b = [] ∧ t.q = [] ∧ t.outcome = .received ∧ t.pos = 7 ∧
      t.syn = 0 ∧ t.err = 0 ∧ t.ready = false ∧ t.fatal = false ∧
      (∀ k, memRead t.tab k = ⟨false, 0⟩) ∧ t.lref = 0 ∧ t.trace = s.trace ∧ t.host = rest

/-- R215, R230: with nothing pending the core waits and keeps all state (log entries 1 and 10). -/
def Obligations.IdleCoreKeepsState : Prop :=
  ∀ s : State, s.host = [] → step s = .next s

/-- R200, R212, R240: no step stops the machine; every state has a next one. -/
def Obligations.EveryStepAnswersNext : Prop :=
  ∀ s : State, ∃ t, step s = .next t

/-- R38: the reset value of every piece of state, and R32: what STATUS then reads. -/
def Obligations.ResetStateValues : Prop :=
  State.reset.a = [] ∧ State.reset.b = [] ∧ State.reset.q = [] ∧
  State.reset.outcome = .received ∧ State.reset.pos = 7 ∧ State.reset.syn = 0 ∧
  State.reset.err = 0 ∧ State.reset.ready = false ∧ State.reset.fatal = false ∧
  (∀ k, memRead State.reset.tab k = ⟨false, 0⟩) ∧ State.reset.lref = 0 ∧
  status State.reset = 0x0700

/-! ## Vectors and views (00_scope.md R14; 10_state.md R24, R32; 41_remainder.md R112) -/

/-- R14: `uint` is the positional sum and `vec` its inverse for a given length. -/
def Obligations.UintAndVecAreInverse : Prop :=
  (∀ v : Vec, uint v = ∑ i ∈ Finset.range v.length, (bitAt v i).toNat * 2 ^ (v.length - 1 - i)) ∧
  uint [] = 0 ∧
  (∀ x n : Nat, x < 2 ^ n → (vec x n).length = n ∧ uint (vec x n) = x) ∧
  (∀ v : Vec, uint v < 2 ^ v.length ∧ vec (uint v) v.length = v) ∧
  vec 5 3 = [true, false, true] ∧ uint [false, true, false] = 2

/-- R24: the bus value of a vector register: its length, its number, its bits right-aligned, and
zeros above them. -/
def Obligations.VectorBusIsRightAligned : Prop :=
  ∀ v : Vec, v.length ≤ 16 →
    ((vecBus v).extractLsb' 16 5).toNat = v.length ∧
    ((vecBus v).extractLsb' 0 16).toNat = uint v ∧
    (∀ i, i < v.length → (vecBus v).getLsbD (v.length - 1 - i) = bitAt v i) ∧
    ∀ j, v.length ≤ j → j < 16 → (vecBus v).getLsbD j = false

/-- R32, R26: where each status field stands in STATUS. -/
def Obligations.StatusFieldPlaces : Prop :=
  ∀ s : State,
    (status s).extractLsb' 0 4 = s.err ∧ (status s).getLsbD 4 = s.ready ∧
    (status s).getLsbD 5 = s.fatal ∧
    (status s).extractLsb' 6 2 = (match s.outcome with
      | .received => 0#2 | .noError => 1#2 | .corrected => 2#2 | .uncorrectable => 3#2) ∧
    (status s).extractLsb' 8 3 = s.pos ∧ (status s).extractLsb' 11 4 = s.syn ∧
    (status s).getLsbD 15 = false

/-- R112: the fields of a packed step record. -/
def Obligations.PackedRecordFields : Prop :=
  ∀ r : StepRecord, r.offset ≤ 15 → 1 ≤ r.before.length → r.before.length ≤ 16 →
    r.after.length = r.before.length →
    ((packRecord r).extractLsb' 38 4).toNat = r.offset ∧ (packRecord r).getLsbD 37 = r.lead ∧
    ((packRecord r).extractLsb' 32 5).toNat = r.before.length ∧
    ((packRecord r).extractLsb' 16 16).toNat = uint r.before ∧
    ((packRecord r).extractLsb' 0 16).toNat = uint r.after

/-- R18, R24, R32: what the host reads between commands is every register but the table, which R50
keeps from it: two states whose reads agree hold the same values. That LREF is read is the model's
reading of R18 (log entry 19). -/
def Obligations.HostReadsEveryRegister : Prop :=
  ∀ s t : State,
    s.a.length ≤ 16 → s.b.length ≤ 16 → s.q.length ≤ 16 →
    t.a.length ≤ 16 → t.b.length ≤ 16 → t.q.length ≤ 16 →
    (hostView s = hostView t ↔
      s.a = t.a ∧ s.b = t.b ∧ s.q = t.q ∧ s.outcome = t.outcome ∧ s.pos = t.pos ∧ s.syn = t.syn ∧
      s.err = t.err ∧ s.ready = t.ready ∧ s.fatal = t.fatal ∧ s.lref = t.lref)

/-! ## LDA and LDB (40_operand_load.md) -/

/-- R90: LDA in every state and for every field value: the loaded vector bit by bit, the two
refusals in their order, and the rule's example. -/
def Obligations.LdaLoadsOrRefuses : Prop :=
  (∀ (len : BitVec 5) (bits : BitVec 16) (s : State),
    (len.toNat ≤ 16 → bits.toNat < 2 ^ len.toNat →
      ∃ v : Vec, exec (.lda len bits) s = .next { s with a := v, err := 0 } ∧
        v.length = len.toNat ∧ uint v = bits.toNat ∧
        ∀ i, i < len.toNat → v[i]? = some (bits.getLsbD (len.toNat - 1 - i))) ∧
    (16 < len.toNat → exec (.lda len bits) s = .next { s with err := 1 }) ∧
    (len.toNat ≤ 16 → 2 ^ len.toNat ≤ bits.toNat →
      exec (.lda len bits) s = .next { s with err := 2 })) ∧
  ∀ s : State, acceptWord 0x1007005A s =
    .next { s with a := [true, false, true, true, false, true, false], err := 0 }

/-- R91: LDB likewise, and its two corner cases: a vector that is no legal divisor is loaded, and
the REM that follows refuses it. -/
def Obligations.LdbLoadsOrRefuses : Prop :=
  (∀ (len : BitVec 5) (bits : BitVec 16) (s : State),
    (len.toNat ≤ 16 → bits.toNat < 2 ^ len.toNat →
      ∃ v : Vec, exec (.ldb len bits) s = .next { s with b := v, err := 0 } ∧
        v.length = len.toNat ∧ uint v = bits.toNat ∧
        ∀ i, i < len.toNat → v[i]? = some (bits.getLsbD (len.toNat - 1 - i))) ∧
    (16 < len.toNat → exec (.ldb len bits) s = .next { s with err := 1 }) ∧
    (len.toNat ≤ 16 → 2 ^ len.toNat ≤ bits.toNat →
      exec (.ldb len bits) s = .next { s with err := 2 })) ∧
  (∀ s : State, acceptWord 0x2004000B s =
    .next { s with b := [true, false, true, true], err := 0 }) ∧
  ∀ (s : State) (tr : Bool),
    exec (.ldb 4 0x3) s = .next { s with b := [false, false, true, true], err := 0 } ∧
    exec (.remF tr) { s with b := [false, false, true, true], err := 0 } =
      .next { s with b := [false, false, true, true], err := 6 } ∧
    exec (.remT tr) { s with b := [false, false, true, true], err := 0 } =
      .next { s with b := [false, false, true, true], err := 6 }

/-! ## The remainder engine (41_remainder.md) -/

/-- R106: for a divisor with leading coefficient 1, the long division computes the remainder of
polynomials over GF(2), and it is zero exactly when the divisor divides. -/
def Obligations.RemFixedIsPolynomialRemainder : Prop :=
  ∀ a d : Vec, d.head? = some true →
    (remFixed a d).length = d.length - 1 ∧
    polyOf (remFixed a d) = polyOf a %ₘ polyOf d ∧
    (remFixed a d = zeros (d.length - 1) ↔ polyOf d ∣ polyOf a)

/-- R107, R109: REM.F in every state: the fixed-width remainder and the records with TR = 1, or
InvalidDivisor for an empty divisor or one that begins with 0; and the rule's example. -/
def Obligations.RemFWritesFixedRemainder : Prop :=
  ∀ (tr : Bool) (s : State),
    (s.b.head? = some true →
      exec (.remF tr) s =
        .next { s with
          q := remFixed s.a s.b, err := 0,
          trace := s.trace ++ if tr then remTrace s.a s.b else [] } ∧
      (remFixed s.a s.b).length = s.b.length - 1 ∧
      polyOf (remFixed s.a s.b) = polyOf s.a %ₘ polyOf s.b ∧
      (remTrace s.a s.b).length = s.a.length + 1 - s.b.length) ∧
    (s.b.head? ≠ some true → exec (.remF tr) s = .next { s with err := 6 }) ∧
    (s.a = [true, false, true, true, false, true, false] → s.b = [true, false, true, true] →
      exec (.remF false) s = .next { s with q := [false, true, false], err := 0 })

/-- R108, R103: REM.T in every state: the remainder of the polynomials without a leading 0, empty
when it is zero, at most `B.len - 1` bits; the same records as REM.F; or InvalidDivisor; and the rule's
example. -/
def Obligations.RemTWritesTrimmedRemainder : Prop :=
  ∀ (tr : Bool) (s : State),
    (s.b.head? = some true →
      ∃ v : Vec,
        exec (.remT tr) s =
          .next { s with
            q := v, err := 0,
            trace := s.trace ++ if tr then remTrace s.a s.b else [] } ∧
        v.length ≤ s.b.length - 1 ∧ v.head? ≠ some false ∧
        polyOf v = polyOf s.a %ₘ polyOf s.b ∧
        (polyOf s.b ∣ polyOf s.a → v.length = Config.trimZeroLen) ∧
        (s.a.length < s.b.length → ∃ k, s.a = zeros k ++ v)) ∧
    (s.b.head? ≠ some true → exec (.remT tr) s = .next { s with err := 6 }) ∧
    (s.a = [true, false, true, true, false, true, false] → s.b = [true, false, true, true] →
      exec (.remT false) s = .next { s with q := [true, false], err := 0 })

/-- R104: the degenerate inputs, row by row, for every divisor with leading coefficient 1, and that
with such a divisor no dividend makes a REM command raise an error. -/
def Obligations.DegenerateInputsNeverFail : Prop :=
  ∀ d : Vec, d.head? = some true →
    (∀ n, d.length ≤ n →
      remRaw (zeros n) d = zeros (d.length - 1) ∧ remFixed (zeros n) d = zeros (d.length - 1) ∧
      remTrim (zeros n) d = []) ∧
    (∀ a : Vec, a.length < d.length →
      remRaw a d = a ∧ remFixed a d = zeros (d.length - 1 - a.length) ++ a ∧
      ∃ k, a = zeros k ++ remTrim a d ∧ (remTrim a d).head? ≠ some false) ∧
    (remRaw [] d = [] ∧ remFixed [] d = zeros (d.length - 1) ∧ remTrim [] d = []) ∧
    (d = [true] → ∀ a : Vec, remRaw a d = [] ∧ remFixed a d = [] ∧ remTrim a d = []) ∧
    (remRaw d d = zeros (d.length - 1) ∧ remFixed d d = zeros (d.length - 1) ∧
      remTrim d d = []) ∧
    ∀ (tr : Bool) (s : State), s.b = d →
      (∃ t, exec (.remF tr) s = .next t ∧ t.err = 0) ∧
      ∃ t, exec (.remT tr) s = .next t ∧ t.err = 0

/-- R105: how often the loop runs (one record per iteration, R110) for a divisor with leading
coefficient 1, which is what R101 divides by: `max(0, la - ld + 1)`, 4 for the core's own divisions,
at most 16 for registers, and 16 is reached. -/
def Obligations.DivisionIterationCount : Prop :=
  (∀ a d : Vec, d.head? = some true →
    (remTrace a d).length = a.length + 1 - d.length ∧
    (a.length = 7 → d.length = 4 → (remTrace a d).length = 4) ∧
    (a.length ≤ 16 → (remTrace a d).length ≤ 16)) ∧
  ∀ a : Vec, a.length = 16 → (remTrace a [true]).length = 16

/-- R110, R100: every record of a division: its offset, the leading bit, the working dividend
before and after the conditional XOR of the divisor into the high-order window, how each follows
from the one before, and that the last leaves the remainder. -/
def Obligations.StepRecordsReplayTheDivision : Prop :=
  ∀ (a d : Vec) (i : Nat) (r : StepRecord), d.head? = some true →
    (remTrace a d)[i]? = some r →
    r.offset = i ∧ r.before.length = a.length - i ∧ r.after.length = a.length - i ∧
    r.before[0]? = some r.lead ∧ bitAt r.after 0 = false ∧
    (r.lead = false → r.after = r.before) ∧
    (r.lead = true → ∀ j, bitAt r.after j = (bitAt r.before j ^^ bitAt d j)) ∧
    (i = 0 → r.before = a) ∧
    (∀ r', (remTrace a d)[i + 1]? = some r' → r'.before = drop1 r.after) ∧
    ((remTrace a d).length = i + 1 → remRaw a d = drop1 r.after)

/-- R111: TR changes no register: the state after a command with TR = 1, less what it emitted, is
the state after the same command with TR = 0. -/
def Obligations.TracingChangesNoRegister : Prop :=
  ∀ (x : Bool → Instr) (s t : State),
    (x = .remF ∨ x = .remT ∨ x = .enc ∨ x = .decD ∨ x = .decL) →
    exec (x true) s = .next t → exec (x false) s = .next { t with trace := s.trace }

/-- R113: what each command emits when it completes with TR = 1; nothing with TR = 0, on an error,
from DEC.L, or from a command without a TR bit. -/
def Obligations.RecordsEmittedByCommand : Prop :=
  ∀ (i : Instr) (s t : State), exec i s = .next t →
    ∃ recs, t.trace = s.trace ++ recs ∧ (t.err ≠ 0 → recs = []) ∧
      (match i with
       | .remF true => t.err = 0 → recs = remTrace s.a s.b
       | .remT true => t.err = 0 → recs = remTrace s.a s.b
       | .enc true =>
         t.err = 0 →
           recs = remTrace (s.a ++ [false, false, false]) Config.hardware.g ∧ recs.length = 4
       | .decD true => t.err = 0 → recs = remTrace s.a Config.hardware.g ∧ recs.length = 4
       | _ => recs = [])

/-! ## The encoder (42_encoder.md) -/

/-- R122, R121: ENC in every state: the tests in their order, then a 7-bit word whose first four
bits are the data and whose remainder under G is zero; and the rule's example. -/
def Obligations.EncWritesSystematicCodeword : Prop :=
  ∀ (tr : Bool) (s : State),
    (s.fatal = true → exec (.enc tr) s = .next { s with err := 3 }) ∧
    (s.fatal = false → s.ready = false → exec (.enc tr) s = .next { s with err := 4 }) ∧
    (s.fatal = false → s.ready = true → s.a.length ≠ 4 →
      exec (.enc tr) s = .next { s with err := 1 }) ∧
    (s.fatal = false → s.ready = true → s.a.length = 4 →
      ∃ c : Vec,
        exec (.enc tr) s =
          .next { s with
            q := c, err := 0,
            trace := s.trace ++
              if tr then remTrace (s.a ++ [false, false, false]) Config.hardware.g else [] } ∧
        c.length = 7 ∧ c.take 4 = s.a ∧
        remFixed c Config.hardware.g = [false, false, false] ∧
        (remTrace (s.a ++ [false, false, false]) Config.hardware.g).length = 4) ∧
    (s.fatal = false → s.ready = true → s.a = [true, false, true, true] →
      exec (.enc false) s =
        .next { s with q := [true, false, true, true, false, false, false], err := 0 })

/-- R120: for any generator of length 4 the codeword is the data followed by the parity. -/
def Obligations.CodewordIsDataThenParity : Prop :=
  ∀ g data : Vec, g.length = 4 → bitAt g 0 = true → data.length = 4 →
    encodeWord g data = data ++ remFixed (data ++ [false, false, false]) g ∧
    (encodeWord g data).length = 7

/-- R123: the 16 codewords with their weights, and that they are exactly the 7-bit words with zero
remainder under G. -/
def Obligations.SixteenCodewords : Prop :=
  ((List.range 16).map fun d => uint (encodeWord Config.hardware.g (vec d 4))) =
    [0x00, 0x0B, 0x16, 0x1D, 0x27, 0x2C, 0x31, 0x3A, 0x45, 0x4E, 0x53, 0x58, 0x62, 0x69, 0x74,
      0x7F] ∧
  ((List.range 16).map fun d => (encodeWord Config.hardware.g (vec d 4)).count true) =
    [0, 3, 3, 4, 4, 3, 3, 4, 3, 4, 4, 3, 3, 4, 4, 7] ∧
  ∀ v : Vec, v.length = 7 →
    (remFixed v Config.hardware.g = [false, false, false] ↔
      ∃ d : Vec, d.length = 4 ∧ v = encodeWord Config.hardware.g d)

/-- Glossary of 00_scope.md, with R8: every cyclic rotation of a valid codeword is one. -/
def Obligations.CodewordsAreCyclic : Prop :=
  ∀ (v : Vec) (n : Nat), isCodeword v → isCodeword (v.rotate n)

/-- R8: G(x)·H(x) = x^7 + 1. -/
def Obligations.GeneratorTimesParityCheck : Prop :=
  polyOf Config.hardware.g * polyOf Config.hardware.h = Polynomial.X ^ 7 + 1

/-! ## The table and INIT (43_table_init.md) -/

/-- R131: what the builder leaves at an address: the last position with that syndrome, or an
invalid entry; so two positions with one syndrome leave fewer than 7 valid entries. -/
def Obligations.BuilderKeepsLastPosition : Prop :=
  (∀ (g : Vec) (k : BitVec 3), g.length = 4 →
    ((∀ p, p < 7 → uint (remFixed (unitVec p) g) ≠ k.toNat) →
      memRead (buildTable g) k = ⟨false, 0⟩) ∧
    ∀ p, p < 7 → uint (remFixed (unitVec p) g) = k.toNat →
      (∀ p', p < p' → p' < 7 → uint (remFixed (unitVec p') g) ≠ k.toNat) →
      memRead (buildTable g) k = ⟨true, BitVec.ofNat 3 p⟩) ∧
  ∀ (g : Vec) (p p' : Nat), g.length = 4 → p < p' → p' < 7 →
    uint (remFixed (unitVec p) g) = uint (remFixed (unitVec p') g) →
    (Finset.univ.filter fun k : Fin 8 => (memRead (buildTable g) (BitVec.ofFin k)).v = true).card
      < 7

/-- R132: the check is that of a bijection, for any table; and a generator with leading 1 that
passes it has no key 0. -/
def Obligations.TableCheckIsBijection : Prop :=
  (∀ t : Memory, tableOk t = true ↔
    (Finset.univ.filter fun k : Fin 8 => (memRead t (BitVec.ofFin k)).v = true).card = 7 ∧
    ∀ p : BitVec 3,
      (∃ k : BitVec 3, (memRead t k).v = true ∧ (memRead t k).pos = p) ↔ p.toNat ≤ 6) ∧
  ∀ g : Vec, g.length = 4 → bitAt g 0 = true → tableOk (buildTable g) = true →
    (memRead (buildTable g) 0).v = false

/-- R137, R134: INIT under any constants: the two tests, the construction fault with its three
effects, or the completed construction; and the rule's example, INIT from the reset state of this
hardware. -/
def Obligations.InitUnderAnyConstants : Prop :=
  (∀ (c : Config) (s : State),
    (s.fatal = true → initStep c s = { s with err := 3 }) ∧
    (s.fatal = false → s.ready = true → initStep c s = { s with err := 5 }) ∧
    (s.fatal = false → s.ready = false → tableOk (buildTable c.g) = false →
      ∃ m, initStep c s = { s with tab := m, fatal := true, err := 3 } ∧
        ∀ k, memRead m k = ⟨false, 0⟩) ∧
    (s.fatal = false → s.ready = false → tableOk (buildTable c.g) = true →
      ∃ m, initStep c s =
          { s with
            tab := m, ready := true, err := 0,
            lref := BitVec.ofNat 4 (uint (lsyn c.lt (unitVec 6))) } ∧
        ∀ k, memRead m k = memRead (buildTable c.g) k)) ∧
  ∃ m, exec .init State.reset =
      .next { State.reset with tab := m, lref := 6, ready := true, err := 0 } ∧
    ∀ k, memRead m k = tableImage k

/-- R133, R135, R138, R139: INIT on this hardware, in every state: the construction never fails,
the table is that of R133 and the reference is 6; a second INIT is refused. -/
def Obligations.InitBuildsOnce : Prop :=
  ∀ s : State,
    (s.fatal = false → s.ready = false →
      ∃ m, exec .init s = .next { s with tab := m, lref := 6, ready := true, err := 0 } ∧
        ∀ k, memRead m k = tableImage k) ∧
    (s.fatal = false → s.ready = true → exec .init s = .next { s with err := 5 }) ∧
    (s.fatal = true → exec .init s = .next { s with err := 3 })

/-! ## The direct-division decoder (44_decode_direct.md) -/

/-- R147, R146: DEC.D in every state, for any contents of the table: the tests in their order, then
one of the three transitions, the corrected word bit by bit; and the rule's example. What a valid
entry with position 7 leads to is left out of the second transition: 7 is no position of the word, so
R15 gives no flip there (log entry 7). -/
def Obligations.DecDDecodesByTable : Prop :=
  ∀ (tr : Bool) (s : State),
    (s.fatal = true → exec (.decD tr) s = .next { s with err := 3 }) ∧
    (s.fatal = false → s.ready = false → exec (.decD tr) s = .next { s with err := 4 }) ∧
    (s.fatal = false → s.ready = true → s.a.length ≠ 7 →
      exec (.decD tr) s = .next { s with err := 1 }) ∧
    (s.fatal = false → s.ready = true → s.a.length = 7 →
      ∃ (k : BitVec 3) (c : Vec) (o : DecodeState) (p : BitVec 3),
        exec (.decD tr) s =
          .next { s with
            q := c, outcome := o, pos := p, syn := k.setWidth 4, err := 0,
            trace := s.trace ++ if tr then remTrace s.a Config.hardware.g else [] } ∧
        k.toNat = uint (remFixed s.a Config.hardware.g) ∧ c.length = 7 ∧
        (k = 0 → c = s.a ∧ o = .noError ∧ p = 7) ∧
        (k ≠ 0 → (memRead s.tab k).v = true → (memRead s.tab k).pos ≠ 7 →
          (∀ j, j < 7 → bitAt c j = (bitAt s.a j ^^ decide (j = (memRead s.tab k).pos.toNat))) ∧
          o = .corrected ∧ p = (memRead s.tab k).pos) ∧
        (k ≠ 0 → (memRead s.tab k).v = false → c = s.a ∧ o = .uncorrectable ∧ p = 7) ∧
        (remTrace s.a Config.hardware.g).length = 4) ∧
    (s.fatal = false → s.ready = true → s.a = [true, false, true, true, false, true, false] →
      memRead s.tab 2 = ⟨true, 5⟩ →
      exec (.decD false) s =
        .next { s with
          q := [true, false, true, true, false, false, false],
          outcome := .corrected, pos := 5, syn := 2, err := 0 })

/-- R146, R50: DEC.D reads one entry of the table at most, the one at the direct syndrome. -/
def Obligations.DecDReadsOneEntry : Prop :=
  ∀ (tr : Bool) (s t : State) (m : Memory),
    (dsyn Config.hardware.g s.a = 0 ∨
      memRead m (dsyn Config.hardware.g s.a) = memRead s.tab (dsyn Config.hardware.g s.a)) →
    exec (.decD tr) s = .next t → exec (.decD tr) { s with tab := m } = .next { t with tab := m }

/-- R149: every 7-bit word is a valid codeword or one flip away from exactly one. -/
def Obligations.EveryWordHasOneNearestCodeword : Prop :=
  ∀ v : Vec, v.length = 7 → ∃! c : Vec, isCodeword c ∧ distance v c ≤ 1

/-- R150: a word two flips away from a valid codeword is reported Corrected, to a valid codeword
that is not the one it came from. -/
def Obligations.TwoFlipsGiveAnotherCodeword : Prop :=
  ∀ (tr : Bool) (s : State) (c : Vec) (p p' : Nat),
    s.Coherent → s.constructed → isCodeword c → p < 7 → p' < 7 → p ≠ p' →
    s.a = flipAt (flipAt c p) p' →
    ∃ t, exec (.decD tr) s = .next t ∧ t.outcome = .corrected ∧ t.err = 0 ∧
      isCodeword t.q ∧ t.q ≠ c

/-! ## The LFSR decoder (45_decode_lfsr.md) -/

/-- R170, R169: DEC.L in every state, for any reference: the tests in their order, then one of the
three transitions; a step count i is position 6 - i; no record is emitted. -/
def Obligations.DecLDecodesBySearch : Prop :=
  ∀ (tr : Bool) (s : State),
    (s.fatal = true → exec (.decL tr) s = .next { s with err := 3 }) ∧
    (s.fatal = false → s.ready = false → exec (.decL tr) s = .next { s with err := 4 }) ∧
    (s.fatal = false → s.ready = true → s.a.length ≠ 7 →
      exec (.decL tr) s = .next { s with err := 1 }) ∧
    (s.fatal = false → s.ready = true → s.a.length = 7 →
      ∃ (r : Vec) (y : BitVec 4) (c : Vec) (o : DecodeState) (p : BitVec 3),
        exec (.decL tr) s =
          .next { s with q := c, outcome := o, pos := p, syn := y, err := 0 } ∧
        r = lsyn Config.hardware.lt s.a ∧ y.toNat = uint r ∧ c.length = 7 ∧
        (r = [false, false, false, false] → c = s.a ∧ o = .noError ∧ p = 7) ∧
        (r ≠ [false, false, false, false] → locate Config.hardware.lt s.lref r = none →
          c = s.a ∧ o = .uncorrectable ∧ p = 7) ∧
        ∀ i, r ≠ [false, false, false, false] → locate Config.hardware.lt s.lref r = some i →
          (∀ j, j < 7 → bitAt c j = (bitAt s.a j ^^ decide (j = 6 - i))) ∧
          o = .corrected ∧ p.toNat = 6 - i)

/-- R167: the search gives the least step count from 0 to 6 whose free-running state is the
observed one, for any taps and reference. -/
def Obligations.SearchFindsFirstMatch : Prop :=
  ∀ (lt syn : Vec) (lref : BitVec 4),
    (∀ i, locate lt lref syn = some i ↔
      i < 7 ∧ (lfree lt)^[i] (vec lref.toNat 4) = syn ∧
        ∀ j, j < i → (lfree lt)^[j] (vec lref.toNat 4) ≠ syn) ∧
    (locate lt lref syn = none ↔ ∀ i, i < 7 → (lfree lt)^[i] (vec lref.toNat 4) ≠ syn)

/-- R163: one step of the register, seven steps, and their meaning for this hardware's taps, as
polynomials over GF(2). -/
def Obligations.LfsrComputesPolynomialRemainder : Prop :=
  (∀ (lt r : Vec) (b : Bit), lt.length = 5 → lt.head? = some true → r.length = 4 →
    polyOf (lstep lt r b) =
      (Polynomial.X * polyOf r + (if b then Polynomial.X ^ 4 else 0)) %ₘ polyOf lt) ∧
  (∀ lt v : Vec, lt.length = 5 → lt.head? = some true → v.length = 7 →
    polyOf (lsyn lt v) = (Polynomial.X ^ 4 * polyOf v) %ₘ polyOf lt) ∧
  polyOf Config.hardware.lt = Polynomial.X * polyOf Config.hardware.g ∧
  ∀ v : Vec, v.length = 7 →
    polyOf (lsyn Config.hardware.lt v) =
      Polynomial.X * ((Polynomial.X ^ 3 * polyOf v) %ₘ polyOf Config.hardware.g)

/-- R164: the LFSR syndrome is the direct syndrome of v(x)·x^3 with a zero stage after it. -/
def Obligations.LfsrSyndromeIsShiftedRemainder : Prop :=
  ∀ v : Vec, v.length = 7 →
    lsyn Config.hardware.lt v =
      remFixed (v ++ [false, false, false]) Config.hardware.g ++ [false] ∧
    bitAt (lsyn Config.hardware.lt v) 3 = false ∧
    uint (lsyn Config.hardware.lt v) ∈ [0, 2, 4, 6, 8, 10, 12, 14] ∧
    (lsyn Config.hardware.lt v = [false, false, false, false] ↔
      uint (remFixed v Config.hardware.g) = 0)

/-- R171: the orbit of the reference beside the direct syndromes, that it has period 7 at every step count, and that it runs
through the syndromes of the single-bit errors. -/
def Obligations.ReferenceOrbit : Prop :=
  ((List.range 8).map fun i =>
      uint ((lfree Config.hardware.lt)^[i] [false, true, true, false])) =
    [6, 12, 14, 10, 2, 4, 8, 6] ∧
  ((List.range 7).map fun i => uint (remFixed (unitVec (6 - i)) Config.hardware.g)) =
    [1, 2, 4, 3, 6, 7, 5] ∧
  (∀ i, (lfree Config.hardware.lt)^[i] [false, true, true, false] =
    (lfree Config.hardware.lt)^[i % 7] [false, true, true, false]) ∧
  (∀ i, i < 7 → lsyn Config.hardware.lt (unitVec (6 - i)) =
    (lfree Config.hardware.lt)^[i] [false, true, true, false]) ∧
  ∀ v : Vec, v.length = 7 → lsyn Config.hardware.lt v ≠ [false, false, false, false] →
    ∃ i, i < 7 ∧ lsyn Config.hardware.lt v =
      (lfree Config.hardware.lt)^[i] [false, true, true, false]

/-- R172: on this hardware every nonzero LFSR syndrome is located, so DEC.L never ends in
Uncorrectable, and no register state with `r[3] = 1` is located. -/
def Obligations.SearchResolvesEverySyndrome : Prop :=
  (∀ v : Vec, v.length = 7 → lsyn Config.hardware.lt v ≠ [false, false, false, false] →
    locate Config.hardware.lt 6 (lsyn Config.hardware.lt v) ≠ none) ∧
  (∀ (tr : Bool) (s t : State), s.Coherent → s.constructed → exec (.decL tr) s = .next t →
    t.outcome ≠ .uncorrectable) ∧
  ∀ r : Vec, r.length = 4 → bitAt r 3 = true → locate Config.hardware.lt 6 r = none

/-- R9: of the 16 tap vectors with leading 1, LT is the only one whose register ends all-zero
exactly on the valid codewords. -/
def Obligations.OnlyTheseTapsGiveASyndrome : Prop :=
  ∀ lt : Vec, lt.length = 5 → lt.head? = some true →
    ((∀ v : Vec, v.length = 7 → (lsyn lt v = [false, false, false, false] ↔ isCodeword v)) ↔
      lt = Config.hardware.lt)

/-! ## The required properties (46_required_properties.md), of the commands -/

/-- R186: round trip under both strategies. -/
def Obligations.DecodeOfEncodeFindsNoError : Prop :=
  ∀ (tr tr' : Bool) (s : State) (d : Vec), s.Coherent → s.constructed → d.length = 4 →
    s.a = encodeWord Config.hardware.g d →
    ∃ t t', exec (.decD tr) s = .next t ∧ exec (.decL tr') s = .next t' ∧
      t.q = s.a ∧ t.outcome = .noError ∧ t.pos = 7 ∧ t.syn = 0 ∧ t.err = 0 ∧
      t'.q = s.a ∧ t'.outcome = .noError ∧ t'.pos = 7 ∧ t'.syn = 0 ∧ t'.err = 0

/-- R187: single-error correction under both strategies. -/
def Obligations.SingleErrorIsCorrected : Prop :=
  ∀ (tr tr' : Bool) (s : State) (d : Vec) (p : Nat), s.Coherent → s.constructed →
    d.length = 4 → p < 7 → s.a = flipAt (encodeWord Config.hardware.g d) p →
    ∃ t t', exec (.decD tr) s = .next t ∧ exec (.decL tr') s = .next t' ∧
      t.q = encodeWord Config.hardware.g d ∧ t.outcome = .corrected ∧ t.pos.toNat = p ∧
      t.err = 0 ∧
      t'.q = encodeWord Config.hardware.g d ∧ t'.outcome = .corrected ∧ t'.pos.toNat = p ∧
      t'.err = 0

/-- R188, R28: the two strategies agree on all 128 words in Q, OUTCOME, POS and ERR; neither ends in
Uncorrectable (R149, R172). SYN differs for every word that is no valid codeword; for a valid one both
are 0 (95_test_vectors.md section 2.8), where R188's "SYN differs" says too much. -/
def Obligations.StrategiesAgreeOnEveryWord : Prop :=
  ∀ (tr tr' : Bool) (s : State), s.Coherent → s.constructed → s.a.length = 7 →
    ∃ t t', exec (.decD tr) s = .next t ∧ exec (.decL tr') s = .next t' ∧
      t.q = t'.q ∧ t.outcome = t'.outcome ∧ t.pos = t'.pos ∧ t.err = 0 ∧ t'.err = 0 ∧
      t.outcome ≠ .uncorrectable ∧
      (t.outcome = .noError → t.syn = 0 ∧ t'.syn = 0) ∧
      (t.outcome = .corrected → t.syn ≠ 0 ∧ t'.syn ≠ 0 ∧ t.syn ≠ t'.syn)

/-- R192: a decode flips at most one bit, exactly one when it reports Corrected, and its outcome is
one of the three with a position of the word. -/
def Obligations.DecodeFlipsAtMostOneBit : Prop :=
  ∀ (tr : Bool) (s t : State) (i : Instr), s.Coherent → s.constructed → s.a.length = 7 →
    (i = .decD tr ∨ i = .decL tr) → exec i s = .next t →
    t.q.length = 7 ∧ t.a = s.a ∧
    ((t.outcome = .corrected ∧ t.pos.toNat ≤ 6 ∧ t.q = flipAt s.a t.pos.toNat ∧
        distance s.a t.q = 1) ∨
      ((t.outcome = .noError ∨ t.outcome = .uncorrectable) ∧ t.pos = 7 ∧ t.q = s.a))

/-! ## Whole-machine rules (10_state.md, 60_exceptions.md, 70_reset_and_hazards.md) -/

/-- R39: the write sets: a register no command of its row writes keeps its value; an error writes
only ERR, but for INIT's construction fault under other constants. The two fields of the model's
own are not in the rule's table; a command never touches the host's list (log entry 1). -/
def Obligations.CommandsWriteOnlyTheirRow : Prop :=
  (∀ (i : Instr) (s t : State), exec i s = .next t →
    ((∀ len bits, i ≠ .lda len bits) → t.a = s.a) ∧
    ((∀ len bits, i ≠ .ldb len bits) → t.b = s.b) ∧
    ((∃ len bits, i = .lda len bits ∨ i = .ldb len bits) ∨ i = .init → t.q = s.q) ∧
    ((∀ tr, i ≠ .decD tr ∧ i ≠ .decL tr) →
      t.outcome = s.outcome ∧ t.pos = s.pos ∧ t.syn = s.syn) ∧
    (i ≠ .init → t.tab = s.tab ∧ t.lref = s.lref ∧ t.ready = s.ready) ∧
    t.fatal = s.fatal ∧ t.host = s.host ∧
    (t.err ≠ 0 → t = { s with err := t.err })) ∧
  (∀ (cw : CommandWord) (s : State), decode cw = .error .illegalCommand →
    acceptWord cw s = .next { s with err := 7 }) ∧
  ∀ (c : Config) (s : State),
    initStep c s =
      { s with
        tab := (initStep c s).tab, lref := (initStep c s).lref, ready := (initStep c s).ready,
        fatal := (initStep c s).fatal, err := (initStep c s).err }

/-- R205: the fatal lock, what it does not lock, and that only reset clears it. -/
def Obligations.FatalLocksEncodeDecodeInit : Prop :=
  ∀ s : State, s.fatal = true →
    (∀ tr, exec (.enc tr) s = .next { s with err := 3 } ∧
      exec (.decD tr) s = .next { s with err := 3 } ∧
      exec (.decL tr) s = .next { s with err := 3 }) ∧
    exec .init s = .next { s with err := 3 } ∧
    (∀ (i : Instr) (t : State),
      ((∃ len bits, i = .lda len bits ∨ i = .ldb len bits) ∨ ∃ tr, i = .remF tr ∨ i = .remT tr) →
      exec i { s with fatal := false } = .next t → exec i s = .next { t with fatal := true }) ∧
    ∀ t : State, s.host.head? ≠ some .reset → step s = .next t → t.fatal = true

/-- R30, R35: while READY = 1 no command and no wait changes the table, the reference or READY;
only reset does. -/
def Obligations.BuiltTableIsImmutable : Prop :=
  ∀ s t : State, s.ready = true → s.host.head? ≠ some .reset → step s = .next t →
    t.ready = true ∧ t.tab = s.tab ∧ t.lref = s.lref

/-- R23, R28, R37, R193: no command reads Q, OUTCOME, POS, SYN, ERR, what was emitted, or what the
host has pending: two states that agree on the rest agree after it on the rest, on ERR, and on
everything a command that completes writes. -/
def Obligations.ResultRegistersAreNeverRead : Prop :=
  ∀ (i : Instr) (s s' t t' : State),
    s.a = s'.a → s.b = s'.b → s.ready = s'.ready → s.fatal = s'.fatal → s.tab = s'.tab →
    s.lref = s'.lref → exec i s = .next t → exec i s' = .next t' →
    t.a = t'.a ∧ t.b = t'.b ∧ t.ready = t'.ready ∧ t.fatal = t'.fatal ∧ t.tab = t'.tab ∧
    t.lref = t'.lref ∧ t.err = t'.err ∧
    (∃ recs, t.trace = s.trace ++ recs ∧ t'.trace = s'.trace ++ recs) ∧
    (t.err = 0 → (∃ tr, i = .remF tr ∨ i = .remT tr ∨ i = .enc tr) → t.q = t'.q) ∧
    (t.err = 0 → (∃ tr, i = .decD tr ∨ i = .decL tr) →
      t.q = t'.q ∧ t.outcome = t'.outcome ∧ t.pos = t'.pos ∧ t.syn = t'.syn)

/-- R22, R20: no command but REM.F and REM.T reads B. With another vector in B, ENC, DEC.D, DEC.L,
INIT and LDA do the same and leave that vector there; LDB does the same, and leaves it there exactly
when it refuses. -/
def Obligations.OnlyRemReadsB : Prop :=
  ∀ (i : Instr) (s t : State) (v : Vec), exec i s = .next t →
    ((i = .init ∨ (∃ tr, i = .enc tr ∨ i = .decD tr ∨ i = .decL tr) ∨
        ∃ len bits, i = .lda len bits) →
      exec i { s with b := v } = .next { t with b := v }) ∧
    ((∃ len bits, i = .ldb len bits) →
      exec i { s with b := v } = .next { t with b := if t.err = 0 then t.b else v })

/-- R38 with the rules `State.Coherent` cites: the reset state is coherent. -/
def Obligations.ResetIsCoherent : Prop := State.reset.Coherent

/-- R20 to R39, R149, R172, R201: every step of this hardware, whatever the host does, keeps a
coherent state coherent. -/
def Obligations.StepKeepsCoherence : Prop :=
  ∀ s t : State, s.Coherent → step s = .next t → t.Coherent

/-! ## Assembler (30_encoding.md R81) -/

/-- R81: the text of a load of a bit string assembles to the word that loads exactly those bits; a
string with another character, or longer than 16, assembles to nothing. The strings are those with
no separator or comment sign in them. -/
def Obligations.BitStringLoadsItsBits : Prop :=
  ∀ cs : List Char, (∀ c ∈ cs, c ≠ ' ' ∧ c ≠ '\t' ∧ c ≠ ',' ∧ c ≠ ';') →
    ((∀ c ∈ cs, c = '0' ∨ c = '1') → cs.length ≤ 16 →
      ∃ wa wb,
        asmLine (['L', 'D', 'A', ' ', quoteChar] ++ cs ++ [quoteChar]) = some wa ∧
        asmLine (['L', 'D', 'B', ' ', quoteChar] ++ cs ++ [quoteChar]) = some wb ∧
        ∀ s : State,
          acceptWord wa s = .next { s with a := cs.map (fun c => decide (c = '1')), err := 0 } ∧
          acceptWord wb s = .next { s with b := cs.map (fun c => decide (c = '1')), err := 0 }) ∧
    ((∃ c ∈ cs, c ≠ '0' ∧ c ≠ '1') ∨ 16 < cs.length →
      asmLine (['L', 'D', 'A', ' ', quoteChar] ++ cs ++ [quoteChar]) = none ∧
      asmLine (['L', 'D', 'B', ' ', quoteChar] ++ cs ++ [quoteChar]) = none)
end

