-- ==== Sys2Proof/Laws/State.lean ====
section
/-!
SUPPORT. One lemma per field per named update of the state, so that no later proof unfolds a record
update.
-/
namespace Sys2Proof.Machine

/-! ### raise -/

@[simp] theorem raise_a (e : ErrorKind) (s : State) : (raise e s).a = s.a := rfl
@[simp] theorem raise_b (e : ErrorKind) (s : State) : (raise e s).b = s.b := rfl
@[simp] theorem raise_q (e : ErrorKind) (s : State) : (raise e s).q = s.q := rfl
@[simp] theorem raise_outcome (e : ErrorKind) (s : State) : (raise e s).outcome = s.outcome := rfl
@[simp] theorem raise_pos (e : ErrorKind) (s : State) : (raise e s).pos = s.pos := rfl
@[simp] theorem raise_syn (e : ErrorKind) (s : State) : (raise e s).syn = s.syn := rfl
@[simp] theorem raise_err (e : ErrorKind) (s : State) : (raise e s).err = errCode e := rfl
@[simp] theorem raise_ready (e : ErrorKind) (s : State) : (raise e s).ready = s.ready := rfl
@[simp] theorem raise_fatal (e : ErrorKind) (s : State) : (raise e s).fatal = s.fatal := rfl
@[simp] theorem raise_tab (e : ErrorKind) (s : State) : (raise e s).tab = s.tab := rfl
@[simp] theorem raise_lref (e : ErrorKind) (s : State) : (raise e s).lref = s.lref := rfl
@[simp] theorem raise_trace (e : ErrorKind) (s : State) : (raise e s).trace = s.trace := rfl
@[simp] theorem raise_host (e : ErrorKind) (s : State) : (raise e s).host = s.host := rfl

/-! ### complete -/

@[simp] theorem complete_a (s : State) : (complete s).a = s.a := rfl
@[simp] theorem complete_b (s : State) : (complete s).b = s.b := rfl
@[simp] theorem complete_q (s : State) : (complete s).q = s.q := rfl
@[simp] theorem complete_outcome (s : State) : (complete s).outcome = s.outcome := rfl
@[simp] theorem complete_pos (s : State) : (complete s).pos = s.pos := rfl
@[simp] theorem complete_syn (s : State) : (complete s).syn = s.syn := rfl
@[simp] theorem complete_err (s : State) : (complete s).err = 0 := rfl
@[simp] theorem complete_ready (s : State) : (complete s).ready = s.ready := rfl
@[simp] theorem complete_fatal (s : State) : (complete s).fatal = s.fatal := rfl
@[simp] theorem complete_tab (s : State) : (complete s).tab = s.tab := rfl
@[simp] theorem complete_lref (s : State) : (complete s).lref = s.lref := rfl
@[simp] theorem complete_trace (s : State) : (complete s).trace = s.trace := rfl
@[simp] theorem complete_host (s : State) : (complete s).host = s.host := rfl

/-! ### writeA -/

@[simp] theorem writeA_a (v : Vec) (s : State) : (writeA v s).a = v := rfl
@[simp] theorem writeA_b (v : Vec) (s : State) : (writeA v s).b = s.b := rfl
@[simp] theorem writeA_q (v : Vec) (s : State) : (writeA v s).q = s.q := rfl
@[simp] theorem writeA_outcome (v : Vec) (s : State) : (writeA v s).outcome = s.outcome := rfl
@[simp] theorem writeA_pos (v : Vec) (s : State) : (writeA v s).pos = s.pos := rfl
@[simp] theorem writeA_syn (v : Vec) (s : State) : (writeA v s).syn = s.syn := rfl
@[simp] theorem writeA_err (v : Vec) (s : State) : (writeA v s).err = s.err := rfl
@[simp] theorem writeA_ready (v : Vec) (s : State) : (writeA v s).ready = s.ready := rfl
@[simp] theorem writeA_fatal (v : Vec) (s : State) : (writeA v s).fatal = s.fatal := rfl
@[simp] theorem writeA_tab (v : Vec) (s : State) : (writeA v s).tab = s.tab := rfl
@[simp] theorem writeA_lref (v : Vec) (s : State) : (writeA v s).lref = s.lref := rfl
@[simp] theorem writeA_trace (v : Vec) (s : State) : (writeA v s).trace = s.trace := rfl
@[simp] theorem writeA_host (v : Vec) (s : State) : (writeA v s).host = s.host := rfl

/-! ### writeB -/

@[simp] theorem writeB_a (v : Vec) (s : State) : (writeB v s).a = s.a := rfl
@[simp] theorem writeB_b (v : Vec) (s : State) : (writeB v s).b = v := rfl
@[simp] theorem writeB_q (v : Vec) (s : State) : (writeB v s).q = s.q := rfl
@[simp] theorem writeB_outcome (v : Vec) (s : State) : (writeB v s).outcome = s.outcome := rfl
@[simp] theorem writeB_pos (v : Vec) (s : State) : (writeB v s).pos = s.pos := rfl
@[simp] theorem writeB_syn (v : Vec) (s : State) : (writeB v s).syn = s.syn := rfl
@[simp] theorem writeB_err (v : Vec) (s : State) : (writeB v s).err = s.err := rfl
@[simp] theorem writeB_ready (v : Vec) (s : State) : (writeB v s).ready = s.ready := rfl
@[simp] theorem writeB_fatal (v : Vec) (s : State) : (writeB v s).fatal = s.fatal := rfl
@[simp] theorem writeB_tab (v : Vec) (s : State) : (writeB v s).tab = s.tab := rfl
@[simp] theorem writeB_lref (v : Vec) (s : State) : (writeB v s).lref = s.lref := rfl
@[simp] theorem writeB_trace (v : Vec) (s : State) : (writeB v s).trace = s.trace := rfl
@[simp] theorem writeB_host (v : Vec) (s : State) : (writeB v s).host = s.host := rfl

/-! ### writeQ -/

@[simp] theorem writeQ_a (v : Vec) (s : State) : (writeQ v s).a = s.a := rfl
@[simp] theorem writeQ_b (v : Vec) (s : State) : (writeQ v s).b = s.b := rfl
@[simp] theorem writeQ_q (v : Vec) (s : State) : (writeQ v s).q = v := rfl
@[simp] theorem writeQ_outcome (v : Vec) (s : State) : (writeQ v s).outcome = s.outcome := rfl
@[simp] theorem writeQ_pos (v : Vec) (s : State) : (writeQ v s).pos = s.pos := rfl
@[simp] theorem writeQ_syn (v : Vec) (s : State) : (writeQ v s).syn = s.syn := rfl
@[simp] theorem writeQ_err (v : Vec) (s : State) : (writeQ v s).err = s.err := rfl
@[simp] theorem writeQ_ready (v : Vec) (s : State) : (writeQ v s).ready = s.ready := rfl
@[simp] theorem writeQ_fatal (v : Vec) (s : State) : (writeQ v s).fatal = s.fatal := rfl
@[simp] theorem writeQ_tab (v : Vec) (s : State) : (writeQ v s).tab = s.tab := rfl
@[simp] theorem writeQ_lref (v : Vec) (s : State) : (writeQ v s).lref = s.lref := rfl
@[simp] theorem writeQ_trace (v : Vec) (s : State) : (writeQ v s).trace = s.trace := rfl
@[simp] theorem writeQ_host (v : Vec) (s : State) : (writeQ v s).host = s.host := rfl

/-! ### markReady -/

@[simp] theorem markReady_a (x : BitVec 4) (s : State) : (markReady x s).a = s.a := rfl
@[simp] theorem markReady_b (x : BitVec 4) (s : State) : (markReady x s).b = s.b := rfl
@[simp] theorem markReady_q (x : BitVec 4) (s : State) : (markReady x s).q = s.q := rfl
@[simp] theorem markReady_outcome (x : BitVec 4) (s : State) : (markReady x s).outcome = s.outcome := rfl
@[simp] theorem markReady_pos (x : BitVec 4) (s : State) : (markReady x s).pos = s.pos := rfl
@[simp] theorem markReady_syn (x : BitVec 4) (s : State) : (markReady x s).syn = s.syn := rfl
@[simp] theorem markReady_err (x : BitVec 4) (s : State) : (markReady x s).err = s.err := rfl
@[simp] theorem markReady_ready (x : BitVec 4) (s : State) : (markReady x s).ready = true := rfl
@[simp] theorem markReady_fatal (x : BitVec 4) (s : State) : (markReady x s).fatal = s.fatal := rfl
@[simp] theorem markReady_tab (x : BitVec 4) (s : State) : (markReady x s).tab = s.tab := rfl
@[simp] theorem markReady_lref (x : BitVec 4) (s : State) : (markReady x s).lref = x := rfl
@[simp] theorem markReady_trace (x : BitVec 4) (s : State) : (markReady x s).trace = s.trace := rfl
@[simp] theorem markReady_host (x : BitVec 4) (s : State) : (markReady x s).host = s.host := rfl

/-! ### markFatal -/

@[simp] theorem markFatal_a (s : State) : (markFatal s).a = s.a := rfl
@[simp] theorem markFatal_b (s : State) : (markFatal s).b = s.b := rfl
@[simp] theorem markFatal_q (s : State) : (markFatal s).q = s.q := rfl
@[simp] theorem markFatal_outcome (s : State) : (markFatal s).outcome = s.outcome := rfl
@[simp] theorem markFatal_pos (s : State) : (markFatal s).pos = s.pos := rfl
@[simp] theorem markFatal_syn (s : State) : (markFatal s).syn = s.syn := rfl
@[simp] theorem markFatal_err (s : State) : (markFatal s).err = s.err := rfl
@[simp] theorem markFatal_ready (s : State) : (markFatal s).ready = s.ready := rfl
@[simp] theorem markFatal_fatal (s : State) : (markFatal s).fatal = true := rfl
@[simp] theorem markFatal_tab (s : State) : (markFatal s).tab = s.tab := rfl
@[simp] theorem markFatal_lref (s : State) : (markFatal s).lref = s.lref := rfl
@[simp] theorem markFatal_trace (s : State) : (markFatal s).trace = s.trace := rfl
@[simp] theorem markFatal_host (s : State) : (markFatal s).host = s.host := rfl

/-! ### emit -/

@[simp] theorem emit_a (tr : Bool) (rs : List StepRecord) (s : State) : (emit tr rs s).a = s.a := rfl
@[simp] theorem emit_b (tr : Bool) (rs : List StepRecord) (s : State) : (emit tr rs s).b = s.b := rfl
@[simp] theorem emit_q (tr : Bool) (rs : List StepRecord) (s : State) : (emit tr rs s).q = s.q := rfl
@[simp] theorem emit_outcome (tr : Bool) (rs : List StepRecord) (s : State) : (emit tr rs s).outcome = s.outcome := rfl
@[simp] theorem emit_pos (tr : Bool) (rs : List StepRecord) (s : State) : (emit tr rs s).pos = s.pos := rfl
@[simp] theorem emit_syn (tr : Bool) (rs : List StepRecord) (s : State) : (emit tr rs s).syn = s.syn := rfl
@[simp] theorem emit_err (tr : Bool) (rs : List StepRecord) (s : State) : (emit tr rs s).err = s.err := rfl
@[simp] theorem emit_ready (tr : Bool) (rs : List StepRecord) (s : State) : (emit tr rs s).ready = s.ready := rfl
@[simp] theorem emit_fatal (tr : Bool) (rs : List StepRecord) (s : State) : (emit tr rs s).fatal = s.fatal := rfl
@[simp] theorem emit_tab (tr : Bool) (rs : List StepRecord) (s : State) : (emit tr rs s).tab = s.tab := rfl
@[simp] theorem emit_lref (tr : Bool) (rs : List StepRecord) (s : State) : (emit tr rs s).lref = s.lref := rfl
@[simp] theorem emit_trace (tr : Bool) (rs : List StepRecord) (s : State) : (emit tr rs s).trace = s.trace ++ if tr then rs else [] := rfl
@[simp] theorem emit_host (tr : Bool) (rs : List StepRecord) (s : State) : (emit tr rs s).host = s.host := rfl

/-! ### copyTable -/

@[simp] theorem copyTable_a (t : Memory) (s : State) : (copyTable t s).a = s.a := rfl
@[simp] theorem copyTable_b (t : Memory) (s : State) : (copyTable t s).b = s.b := rfl
@[simp] theorem copyTable_q (t : Memory) (s : State) : (copyTable t s).q = s.q := rfl
@[simp] theorem copyTable_outcome (t : Memory) (s : State) : (copyTable t s).outcome = s.outcome := rfl
@[simp] theorem copyTable_pos (t : Memory) (s : State) : (copyTable t s).pos = s.pos := rfl
@[simp] theorem copyTable_syn (t : Memory) (s : State) : (copyTable t s).syn = s.syn := rfl
@[simp] theorem copyTable_err (t : Memory) (s : State) : (copyTable t s).err = s.err := rfl
@[simp] theorem copyTable_ready (t : Memory) (s : State) : (copyTable t s).ready = s.ready := rfl
@[simp] theorem copyTable_fatal (t : Memory) (s : State) : (copyTable t s).fatal = s.fatal := rfl
@[simp] theorem copyTable_tab (t : Memory) (s : State) : (copyTable t s).tab = fillTable (memRead t) s.tab := rfl
@[simp] theorem copyTable_lref (t : Memory) (s : State) : (copyTable t s).lref = s.lref := rfl
@[simp] theorem copyTable_trace (t : Memory) (s : State) : (copyTable t s).trace = s.trace := rfl
@[simp] theorem copyTable_host (t : Memory) (s : State) : (copyTable t s).host = s.host := rfl

/-! ### eraseTable -/

@[simp] theorem eraseTable_a (s : State) : (eraseTable s).a = s.a := rfl
@[simp] theorem eraseTable_b (s : State) : (eraseTable s).b = s.b := rfl
@[simp] theorem eraseTable_q (s : State) : (eraseTable s).q = s.q := rfl
@[simp] theorem eraseTable_outcome (s : State) : (eraseTable s).outcome = s.outcome := rfl
@[simp] theorem eraseTable_pos (s : State) : (eraseTable s).pos = s.pos := rfl
@[simp] theorem eraseTable_syn (s : State) : (eraseTable s).syn = s.syn := rfl
@[simp] theorem eraseTable_err (s : State) : (eraseTable s).err = s.err := rfl
@[simp] theorem eraseTable_ready (s : State) : (eraseTable s).ready = s.ready := rfl
@[simp] theorem eraseTable_fatal (s : State) : (eraseTable s).fatal = s.fatal := rfl
@[simp] theorem eraseTable_tab (s : State) : (eraseTable s).tab = fillTable (fun _ => Entry.invalid) s.tab := rfl
@[simp] theorem eraseTable_lref (s : State) : (eraseTable s).lref = s.lref := rfl
@[simp] theorem eraseTable_trace (s : State) : (eraseTable s).trace = s.trace := rfl
@[simp] theorem eraseTable_host (s : State) : (eraseTable s).host = s.host := rfl

/-! ### writeDecoded -/

@[simp] theorem writeDecoded_a (d : Decoded) (s : State) : (writeDecoded d s).a = s.a := rfl
@[simp] theorem writeDecoded_b (d : Decoded) (s : State) : (writeDecoded d s).b = s.b := rfl
@[simp] theorem writeDecoded_q (d : Decoded) (s : State) : (writeDecoded d s).q = d.word := rfl
@[simp] theorem writeDecoded_outcome (d : Decoded) (s : State) : (writeDecoded d s).outcome = verdictState d.verdict := rfl
@[simp] theorem writeDecoded_pos (d : Decoded) (s : State) : (writeDecoded d s).pos = verdictPos d.verdict := rfl
@[simp] theorem writeDecoded_syn (d : Decoded) (s : State) : (writeDecoded d s).syn = d.syndrome := rfl
@[simp] theorem writeDecoded_err (d : Decoded) (s : State) : (writeDecoded d s).err = s.err := rfl
@[simp] theorem writeDecoded_ready (d : Decoded) (s : State) : (writeDecoded d s).ready = s.ready := rfl
@[simp] theorem writeDecoded_fatal (d : Decoded) (s : State) : (writeDecoded d s).fatal = s.fatal := rfl
@[simp] theorem writeDecoded_tab (d : Decoded) (s : State) : (writeDecoded d s).tab = s.tab := rfl
@[simp] theorem writeDecoded_lref (d : Decoded) (s : State) : (writeDecoded d s).lref = s.lref := rfl
@[simp] theorem writeDecoded_trace (d : Decoded) (s : State) : (writeDecoded d s).trace = s.trace := rfl
@[simp] theorem writeDecoded_host (d : Decoded) (s : State) : (writeDecoded d s).host = s.host := rfl

/-! ### issueFirst -/

@[simp] theorem issueFirst_a (w : CommandWord) (s : State) : (issueFirst w s).a = s.a := rfl
@[simp] theorem issueFirst_b (w : CommandWord) (s : State) : (issueFirst w s).b = s.b := rfl
@[simp] theorem issueFirst_q (w : CommandWord) (s : State) : (issueFirst w s).q = s.q := rfl
@[simp] theorem issueFirst_outcome (w : CommandWord) (s : State) : (issueFirst w s).outcome = s.outcome := rfl
@[simp] theorem issueFirst_pos (w : CommandWord) (s : State) : (issueFirst w s).pos = s.pos := rfl
@[simp] theorem issueFirst_syn (w : CommandWord) (s : State) : (issueFirst w s).syn = s.syn := rfl
@[simp] theorem issueFirst_err (w : CommandWord) (s : State) : (issueFirst w s).err = s.err := rfl
@[simp] theorem issueFirst_ready (w : CommandWord) (s : State) : (issueFirst w s).ready = s.ready := rfl
@[simp] theorem issueFirst_fatal (w : CommandWord) (s : State) : (issueFirst w s).fatal = s.fatal := rfl
@[simp] theorem issueFirst_tab (w : CommandWord) (s : State) : (issueFirst w s).tab = s.tab := rfl
@[simp] theorem issueFirst_lref (w : CommandWord) (s : State) : (issueFirst w s).lref = s.lref := rfl
@[simp] theorem issueFirst_trace (w : CommandWord) (s : State) : (issueFirst w s).trace = s.trace := rfl
@[simp] theorem issueFirst_host (w : CommandWord) (s : State) : (issueFirst w s).host = .issue w :: s.host := rfl

/-! ### idle -/

@[simp] theorem idle_a (s : State) : (idle s).a = s.a := rfl
@[simp] theorem idle_b (s : State) : (idle s).b = s.b := rfl
@[simp] theorem idle_q (s : State) : (idle s).q = s.q := rfl
@[simp] theorem idle_outcome (s : State) : (idle s).outcome = s.outcome := rfl
@[simp] theorem idle_pos (s : State) : (idle s).pos = s.pos := rfl
@[simp] theorem idle_syn (s : State) : (idle s).syn = s.syn := rfl
@[simp] theorem idle_err (s : State) : (idle s).err = s.err := rfl
@[simp] theorem idle_ready (s : State) : (idle s).ready = s.ready := rfl
@[simp] theorem idle_fatal (s : State) : (idle s).fatal = s.fatal := rfl
@[simp] theorem idle_tab (s : State) : (idle s).tab = s.tab := rfl
@[simp] theorem idle_lref (s : State) : (idle s).lref = s.lref := rfl
@[simp] theorem idle_trace (s : State) : (idle s).trace = s.trace := rfl
@[simp] theorem idle_host (s : State) : (idle s).host = s.host := rfl

/-! ### assertReset -/

@[simp] theorem assertReset_a (s : State) : (assertReset s).a = State.reset.a := rfl
@[simp] theorem assertReset_b (s : State) : (assertReset s).b = State.reset.b := rfl
@[simp] theorem assertReset_q (s : State) : (assertReset s).q = State.reset.q := rfl
@[simp] theorem assertReset_outcome (s : State) : (assertReset s).outcome = State.reset.outcome := rfl
@[simp] theorem assertReset_pos (s : State) : (assertReset s).pos = State.reset.pos := rfl
@[simp] theorem assertReset_syn (s : State) : (assertReset s).syn = State.reset.syn := rfl
@[simp] theorem assertReset_err (s : State) : (assertReset s).err = State.reset.err := rfl
@[simp] theorem assertReset_ready (s : State) : (assertReset s).ready = State.reset.ready := rfl
@[simp] theorem assertReset_fatal (s : State) : (assertReset s).fatal = State.reset.fatal := rfl
@[simp] theorem assertReset_tab (s : State) : (assertReset s).tab = State.reset.tab := rfl
@[simp] theorem assertReset_lref (s : State) : (assertReset s).lref = State.reset.lref := rfl
@[simp] theorem assertReset_trace (s : State) : (assertReset s).trace = s.trace := rfl
@[simp] theorem assertReset_host (s : State) : (assertReset s).host = s.host := rfl

end Sys2Proof.Machine
end

