-- ==== Sys2Proof/Laws/Table.lean ====
section
/-!
SUPPORT. The laws of the syndrome table as a memory: a read after a write, and that every operation
keeps the canonical form.
-/
namespace Sys2Proof.Machine

@[simp] theorem byteEntry_entryByte (e : Entry) : byteEntry (entryByte e) = e := by
  obtain ⟨v, p⟩ := e
  revert p; cases v <;> decide

theorem entryByte_lt (e : Entry) : (entryByte e).toNat < 16 := by
  obtain ⟨v, p⟩ := e
  revert p; cases v <;> decide

theorem cellRead_insert_same (x : Nat) (b : BitVec 8) (m : Memory) (h : ∀ c ∈ m, c.1 ≠ x) :
    cellRead (cellInsert x b m) x = b := by
  induction m with
  | nil => simp [cellInsert, cellRead]
  | cons c m ih =>
    obtain ⟨k, c⟩ := c
    have hk : k ≠ x := h (k, c) (by simp)
    unfold cellInsert
    split
    · simp [cellRead]
    · simpa [cellRead, hk] using ih fun c hc => h c (by simp [hc])

theorem cellRead_insert_other (x y : Nat) (b : BitVec 8) (m : Memory) (h : x ≠ y) :
    cellRead (cellInsert x b m) y = cellRead m y := by
  induction m with
  | nil => simp [cellInsert, cellRead, h]
  | cons c m ih =>
    obtain ⟨k, c⟩ := c
    unfold cellInsert
    split
    · simp [cellRead, h]
    · simp [cellRead, ih]

theorem cellRead_filter_same (x : Nat) (m : Memory) :
    cellRead (m.filter fun c => c.1 ≠ x) x = 0 := by
  induction m with
  | nil => rfl
  | cons c m ih =>
    by_cases hk : c.1 = x
    · simpa [hk] using ih
    · obtain ⟨k, c⟩ := c
      have hk : k ≠ x := hk
      simpa [hk, cellRead] using ih

theorem cellRead_filter_other (x y : Nat) (m : Memory) (h : x ≠ y) :
    cellRead (m.filter fun c => c.1 ≠ x) y = cellRead m y := by
  induction m with
  | nil => rfl
  | cons c m ih =>
    obtain ⟨k, c⟩ := c
    by_cases hk : k = x
    · subst hk; simpa [cellRead, h] using ih
    · have := ih; by_cases hy : k = y <;> simp_all [cellRead]

theorem cellRead_cellWrite (m : Memory) (x y : Nat) (b : BitVec 8) :
    cellRead (cellWrite m x b) y = if x = y then b else cellRead m y := by
  unfold cellWrite
  by_cases h : x = y
  · subst h
    split
    · next hb => simpa [hb] using cellRead_filter_same x m
    · rw [cellRead_insert_same x b _ (by simp)]; simp
  · rw [if_neg h]
    dsimp only
    split
    · exact cellRead_filter_other x y m h
    · rw [cellRead_insert_other x y b _ h]; exact cellRead_filter_other x y m h

/-- Read after write, for every memory (R50). -/
theorem memRead_memWrite (m : Memory) (x y : BitVec 3) (e : Entry) :
    memRead (memWrite m x e) y = if x = y then e else memRead m y := by
  unfold memRead memWrite
  rw [cellRead_cellWrite]
  by_cases h : x = y
  · simp [h]
  · have : x.toNat ≠ y.toNat := fun he => h (BitVec.eq_of_toNat_eq he)
    simp [h, this]

@[simp] theorem memRead_nil (k : BitVec 3) : memRead [] k = Entry.invalid := by
  simp [memRead, cellRead, byteEntry, Entry.invalid]

theorem memRead_foldl (f : BitVec 3 → Entry) (ks : List (BitVec 3)) (m : Memory) (y : BitVec 3) :
    memRead (ks.foldl (fun m k => memWrite m k (f k)) m) y =
      if y ∈ ks then f y else memRead m y := by
  induction ks generalizing m with
  | nil => simp
  | cons k ks ih =>
    rw [List.foldl_cons, ih, memRead_memWrite]
    by_cases hy : y ∈ ks
    · simp [hy]
    · by_cases hk : k = y
      · simp [hk]
      · simp [hy, hk, Ne.symm hk]

theorem mem_tabAddresses (k : BitVec 3) : k ∈ tabAddresses := by
  revert k; decide

/-- A filled table reads as the function it was filled from, whatever it held before. -/
@[simp] theorem memRead_fillTable (f : BitVec 3 → Entry) (m : Memory) (k : BitVec 3) :
    memRead (fillTable f m) k = f k := by
  simp [fillTable, memRead_foldl, mem_tabAddresses]

/-! ### The canonical form -/

theorem wf_iff (m : Memory) : Memory.wf m = true ↔
    (m.Pairwise fun x y => x.1 < y.1) ∧ ∀ c ∈ m, c.1 < 8 ∧ c.2 ≠ 0#8 ∧ c.2.toNat < 16 := by
  simp only [Memory.wf, Bool.and_eq_true, decide_eq_true_eq, List.all_eq_true, and_assoc]

theorem mem_cellInsert (x : Nat) (b : BitVec 8) (m : Memory) (c : Host.Cell) :
    c ∈ cellInsert x b m ↔ c = (x, b) ∨ c ∈ m := by
  induction m with
  | nil => simp [cellInsert]
  | cons d m ih =>
    obtain ⟨k, d⟩ := d
    unfold cellInsert
    split
    · simp
    · simp only [List.mem_cons, ih]; tauto

theorem cellInsert_rising (x : Nat) (b : BitVec 8) (m : Memory) (h : ∀ c ∈ m, c.1 ≠ x)
    (hp : m.Pairwise fun x y => x.1 < y.1) :
    (cellInsert x b m).Pairwise fun x y => x.1 < y.1 := by
  induction m with
  | nil => simp [cellInsert]
  | cons d m ih =>
    obtain ⟨k, d⟩ := d
    have hk : k ≠ x := h (k, d) (by simp)
    obtain ⟨h1, h2⟩ := List.pairwise_cons.mp hp
    unfold cellInsert
    split
    · next hlt =>
      refine List.pairwise_cons.mpr ⟨?_, hp⟩
      intro c hc
      rcases List.mem_cons.mp hc with rfl | hc
      · exact hlt
      · exact lt_trans hlt (h1 c hc)
    · next hlt =>
      refine List.pairwise_cons.mpr ⟨?_, ih (fun c hc => h c (by simp [hc])) h2⟩
      intro c hc
      rcases (mem_cellInsert x b m c).mp hc with rfl | hc
      · show k < x; omega
      · exact h1 c hc

/-- A write of a 4-bit value at an address below 8 keeps the canonical form. -/
theorem cellWrite_wf (m : Memory) (x : Nat) (b : BitVec 8) (hx : x < 8) (hb : b.toNat < 16)
    (h : Memory.wf m = true) : Memory.wf (cellWrite m x b) = true := by
  rw [wf_iff] at h ⊢
  obtain ⟨hp, hc⟩ := h
  have hf : (m.filter fun c => c.1 ≠ x).Pairwise fun x y => x.1 < y.1 := hp.filter _
  unfold cellWrite
  dsimp only
  split
  · exact ⟨hf, fun c h => hc c (List.mem_of_mem_filter h)⟩
  · next hne =>
    refine ⟨cellInsert_rising x b _ (by simp) hf, fun c h => ?_⟩
    rcases (mem_cellInsert x b _ c).mp h with rfl | h
    · exact ⟨hx, hne, hb⟩
    · exact hc c (List.mem_of_mem_filter h)

/-- Every write of an entry keeps the canonical form. -/
theorem memWrite_wf (m : Memory) (k : BitVec 3) (e : Entry) (h : Memory.wf m = true) :
    Memory.wf (memWrite m k e) = true :=
  cellWrite_wf m k.toNat (entryByte e) k.isLt (entryByte_lt e) h

theorem foldl_memWrite_wf {ι : Type} (k : ι → BitVec 3) (e : ι → Entry) (ks : List ι) (m : Memory)
    (h : Memory.wf m = true) :
    Memory.wf (ks.foldl (fun m i => memWrite m (k i) (e i)) m) = true := by
  induction ks generalizing m with
  | nil => exact h
  | cons i ks ih => exact ih _ (memWrite_wf m _ _ h)

/-- Filling a table keeps the canonical form. -/
theorem fillTable_wf (f : BitVec 3 → Entry) (m : Memory) (h : Memory.wf m = true) :
    Memory.wf (fillTable f m) = true :=
  foldl_memWrite_wf (fun k => k) f tabAddresses m h

/-- The builder's table is in canonical form. -/
theorem buildTable_wf (g : Vec) : Memory.wf (buildTable g) = true :=
  foldl_memWrite_wf (fun p => dsyn g (unitVec p)) (fun p => ⟨true, BitVec.ofNat 3 p⟩) _ []
    (by decide)

/-- The reset state's memory lists nothing and is in canonical form. -/
theorem reset_tab_wf : Memory.wf State.reset.tab = true := by decide

/-! ### This hardware's table -/

/-- The check holds for this hardware's generator (R139). -/
theorem tableOk_hardware : tableOk (buildTable Config.hardware.g) = true := by decide

theorem reference_hardware : reference Config.hardware.lt = 6 := by decide

end Sys2Proof.Machine
end

