-- ==== Sys2Proof/Laws/Exec.lean ====
section
/-!
SUPPORT. For each shared operation and each meaning, one lemma that says once everything it can do.
-/
namespace Sys2Proof.Machine

/-- A load either refuses with code 1 or 2 or loads the assembled vector. -/
theorem loadWith_cases (write : Vec → State → State) (len : BitVec 5) (bits : BitVec 16)
    (s : State) :
    (16 < len.toNat ∧ loadWith write len bits s = raise .invalidInputLength s) ∨
    (len.toNat ≤ 16 ∧ 2 ^ len.toNat ≤ bits.toNat ∧
      loadWith write len bits s = raise .invalidInputAlphabet s) ∨
    (len.toNat ≤ 16 ∧ bits.toNat < 2 ^ len.toNat ∧
      loadWith write len bits s = complete (write (vec bits.toNat len.toNat) s)) := by
  by_cases h1 : 16 < len.toNat
  · exact .inl ⟨h1, by simp [loadWith, loadCheck, Config.vlenMax, h1]⟩
  · by_cases h2 : 2 ^ len.toNat ≤ bits.toNat
    · exact .inr (.inl ⟨by omega, h2, by simp [loadWith, loadCheck, Config.vlenMax, h1, h2]⟩)
    · exact .inr (.inr ⟨by omega, by omega,
        by simp [loadWith, loadCheck, Config.vlenMax, h1, h2]⟩)

/-- The divisor check, as a fact about the leading element. -/
theorem divisorOk_iff (d : Vec) : divisorOk d = true ↔ d.head? = some true := by
  cases d <;> simp [divisorOk, bitAt]

/-- The tests of ENC, DEC.D and DEC.L, in their order (R211). -/
theorem codecCheck_cases (need : Nat) (s : State) :
    (s.fatal = true ∧ codecCheck need s = some .syndromeTableConstructionFault) ∨
    (s.fatal = false ∧ s.ready = false ∧ codecCheck need s = some .notInitialised) ∨
    (s.fatal = false ∧ s.ready = true ∧ s.a.length ≠ need ∧
      codecCheck need s = some .invalidInputLength) ∨
    (s.fatal = false ∧ s.ready = true ∧ s.a.length = need ∧ codecCheck need s = none) := by
  cases hf : s.fatal <;> cases hr : s.ready <;> simp [codecCheck, hf, hr, em']

/-- INIT's tests, in their order (R211). -/
theorem initCheck_cases (s : State) :
    (s.fatal = true ∧ initCheck s = some .syndromeTableConstructionFault) ∨
    (s.fatal = false ∧ s.ready = true ∧ initCheck s = some .alreadyInitialised) ∨
    (s.fatal = false ∧ s.ready = false ∧ initCheck s = none) := by
  cases hf : s.fatal <;> cases hr : s.ready <;> simp [initCheck, hf, hr]

/-- A REM either refuses the divisor or writes the remainder of its mode. -/
theorem remWith_cases (mode : Vec → Vec → Vec) (tr : Bool) (s : State) :
    (s.b.head? = some true ∧
      remWith mode tr s = complete (writeQ (mode s.a s.b) (emit tr (remTrace s.a s.b) s))) ∨
    (s.b.head? ≠ some true ∧ remWith mode tr s = raise .invalidDivisor s) := by
  by_cases h : divisorOk s.b = true
  · exact .inl ⟨(divisorOk_iff _).mp h, by simp [remWith, h]⟩
  · exact .inr ⟨fun h' => h ((divisorOk_iff _).mpr h'), by simp [remWith, h]⟩

/-- The three ends of a direct decode (R146). -/
theorem decodeDirect_cases (g : Vec) (tab : Memory) (w : Vec) :
    (dsyn g w = 0 ∧ decodeDirect g tab w = ⟨w, .noError, 0⟩) ∨
    (dsyn g w ≠ 0 ∧ (memRead tab (dsyn g w)).v = true ∧
      decodeDirect g tab w =
        ⟨flipAt w (memRead tab (dsyn g w)).pos.toNat, .corrected (memRead tab (dsyn g w)).pos,
          (dsyn g w).setWidth 4⟩) ∨
    (dsyn g w ≠ 0 ∧ (memRead tab (dsyn g w)).v = false ∧
      decodeDirect g tab w = ⟨w, .uncorrectable, (dsyn g w).setWidth 4⟩) := by
  by_cases h : dsyn g w = 0
  · exact .inl ⟨h, by simp [decodeDirect, h]⟩
  · have h' : ¬ dsyn g w = 0#3 := h
    cases hv : (memRead tab (dsyn g w)).v <;> simp [decodeDirect, h', hv]

/-- The three ends of an LFSR decode (R169). -/
theorem decodeLfsr_cases (lt : Vec) (lref : BitVec 4) (w : Vec) :
    (lsyn lt w = zeros 4 ∧
      decodeLfsr lt lref w = ⟨w, .noError, BitVec.ofNat 4 (uint (lsyn lt w))⟩) ∨
    (∃ i, lsyn lt w ≠ zeros 4 ∧ locate lt lref (lsyn lt w) = some i ∧
      decodeLfsr lt lref w =
        ⟨flipAt w (6 - i), .corrected (BitVec.ofNat 3 (6 - i)),
          BitVec.ofNat 4 (uint (lsyn lt w))⟩) ∨
    (lsyn lt w ≠ zeros 4 ∧ locate lt lref (lsyn lt w) = none ∧
      decodeLfsr lt lref w = ⟨w, .uncorrectable, BitVec.ofNat 4 (uint (lsyn lt w))⟩) := by
  by_cases h : lsyn lt w = zeros 4
  · exact .inl ⟨h, by simp [decodeLfsr, h]⟩
  · cases hl : locate lt lref (lsyn lt w) <;> simp [decodeLfsr, h, hl]

/-- ENC either raises what its tests say or writes the codeword. -/
theorem encStep_cases (c : Config) (tr : Bool) (s : State) :
    (∃ e, codecCheck 4 s = some e ∧ encStep c tr s = raise e s) ∨
    (codecCheck 4 s = none ∧
      encStep c tr s =
        complete (writeQ (encodeWord c.g s.a) (emit tr (remTrace (shifted s.a) c.g) s))) := by
  unfold encStep
  cases h : codecCheck 4 s with
  | some e => exact .inl ⟨e, rfl, by simp [Config.dataLen, h]⟩
  | none => exact .inr ⟨rfl, by simp [Config.dataLen, h]⟩

/-- DEC.D either raises what its tests say or writes the decode of A. -/
theorem decDStep_cases (c : Config) (tr : Bool) (s : State) :
    (∃ e, codecCheck 7 s = some e ∧ decDStep c tr s = raise e s) ∨
    (codecCheck 7 s = none ∧
      decDStep c tr s =
        complete (writeDecoded (decodeDirect c.g s.tab s.a) (emit tr (remTrace s.a c.g) s))) := by
  unfold decDStep
  cases h : codecCheck 7 s with
  | some e => exact .inl ⟨e, rfl, by simp [Config.blockLen, h]⟩
  | none => exact .inr ⟨rfl, by simp [Config.blockLen, h]⟩

/-- DEC.L either raises what its tests say or writes the decode of A; TR does not matter. -/
theorem decLStep_cases (c : Config) (tr : Bool) (s : State) :
    (∃ e, codecCheck 7 s = some e ∧ decLStep c tr s = raise e s) ∨
    (codecCheck 7 s = none ∧
      decLStep c tr s = complete (writeDecoded (decodeLfsr c.lt s.lref s.a) s)) := by
  unfold decLStep
  cases h : codecCheck 7 s with
  | some e => exact .inl ⟨e, rfl, by simp [Config.blockLen, h]⟩
  | none => exact .inr ⟨rfl, by simp [Config.blockLen, h]⟩

/-- INIT either raises what its tests say, or fails the construction, or completes it. -/
theorem initStep_cases (c : Config) (s : State) :
    (∃ e, initCheck s = some e ∧ initStep c s = raise e s) ∨
    (initCheck s = none ∧ tableOk (buildTable c.g) = false ∧
      initStep c s = raise .syndromeTableConstructionFault (markFatal (eraseTable s))) ∨
    (initCheck s = none ∧ tableOk (buildTable c.g) = true ∧
      initStep c s =
        complete (markReady (reference c.lt) (copyTable (buildTable c.g) s))) := by
  unfold initStep
  cases h : initCheck s with
  | some e => exact .inl ⟨e, rfl, rfl⟩
  | none => cases ht : tableOk (buildTable c.g) <;> simp

/-- Everything a step can do: wait, take a command word, or take a reset. -/
theorem step_cases {s t : State} (h : step s = .next t) :
    (s.host = [] ∧ t = s) ∨
    (∃ cw rest, s.host = .issue cw :: rest ∧ acceptWord cw { s with host := rest } = .next t) ∨
    (∃ rest, s.host = .reset :: rest ∧ t = assertReset { s with host := rest }) := by
  unfold step at h
  split at h
  · next hh => exact .inl ⟨hh, by cases h; rfl⟩
  · next cw rest hh => exact .inr (.inl ⟨cw, rest, hh, h⟩)
  · next rest hh => exact .inr (.inr ⟨rest, hh, by cases h; rfl⟩)

/-- Everything a command word can do: its decoded command, or IllegalCommand. -/
theorem acceptWord_cases {cw : CommandWord} {s t : State} (h : acceptWord cw s = .next t) :
    (∃ i, decode cw = .ok i ∧ exec i s = .next t) ∨
    (decode cw = .error .illegalCommand ∧ t = raise .illegalCommand s) := by
  unfold acceptWord at h
  split at h
  · next i hi => exact .inl ⟨i, hi, h⟩
  · next hd => exact .inr ⟨hd, by cases h; rfl⟩

end Sys2Proof.Machine
end

