-- ==== Sys2Proof/Laws/PerInstr.lean ====
section
/-!
SUPPORT. Facts about every command as syntax, one lemma per constructor: family EncodingInRow says
that a command's word lies in its row of the opcode map (30_encoding.md R77), the row LAWS.json
names.
-/
namespace Sys2Proof.Laws.EncodingInRow

/-- The mnemonic of a command's row. -/
def rowName : Instr → String
  | .lda _ _ => "LDA"
  | .ldb _ _ => "LDB"
  | .remF _ => "REM.F"
  | .remT _ => "REM.T"
  | .enc _ => "ENC"
  | .decD _ => "DEC.D"
  | .decL _ => "DEC.L"
  | .init => "INIT"

/-- The rows of the command's mnemonic are all matched by its word. -/
def Statement (i : Instr) : Prop :=
  ∀ r ∈ opcodeRows, r.mnemonic = rowName i → rowMatches (encode i) r = true

/-- The reserved bits and OP of a format-L word (R71). -/
theorem formatL_masked (op : BitVec 4) (len : BitVec 5) (bits : BitVec 16) :
    formatL op len bits &&& 0xFFE00000#32 = formatL op 0 0 := by
  apply BitVec.eq_of_getLsbD_eq
  intro i hi
  simp only [formatL, BitVec.getLsbD_and, BitVec.getLsbD_append]
  interval_cases i <;> simp

/-- OP, the reserved bits and SEL of a format-O word (R72). -/
theorem formatO_masked (op : BitVec 4) (tr sel : Bool) :
    formatO op tr sel &&& 0xFFFFFFFD#32 = formatO op false sel := by
  revert op; cases tr <;> cases sel <;> decide

/-- A statement about the rows of one mnemonic is one about the eight rows in turn. -/
theorem statement_of_row {i : Instr} (mask mtch : CommandWord)
    (hrows : ∀ r ∈ opcodeRows, r.mnemonic = rowName i → r.mask = mask ∧ r.mtch = mtch)
    (h : encode i &&& mask = mtch) : Statement i := by
  intro r hr hn
  obtain ⟨h1, h2⟩ := hrows r hr hn
  simp [rowMatches, h1, h2, h]

theorem lda (len : BitVec 5) (bits : BitVec 16) : Statement (.lda len bits) :=
  statement_of_row 0xFFE00000 0x10000000 (by simp [opcodeRows, rowName])
    ((formatL_masked _ _ _).trans (by decide))

theorem ldb (len : BitVec 5) (bits : BitVec 16) : Statement (.ldb len bits) :=
  statement_of_row 0xFFE00000 0x20000000 (by simp [opcodeRows, rowName])
    ((formatL_masked _ _ _).trans (by decide))

theorem remF (tr : Bool) : Statement (.remF tr) :=
  statement_of_row 0xFFFFFFFD 0x30000000 (by simp [opcodeRows, rowName])
    ((formatO_masked _ _ _).trans (by decide))

theorem remT (tr : Bool) : Statement (.remT tr) :=
  statement_of_row 0xFFFFFFFD 0x30000001 (by simp [opcodeRows, rowName])
    ((formatO_masked _ _ _).trans (by decide))

theorem enc (tr : Bool) : Statement (.enc tr) :=
  statement_of_row 0xFFFFFFFD 0x40000000 (by simp [opcodeRows, rowName])
    ((formatO_masked _ _ _).trans (by decide))

theorem decD (tr : Bool) : Statement (.decD tr) :=
  statement_of_row 0xFFFFFFFD 0x50000000 (by simp [opcodeRows, rowName])
    ((formatO_masked _ _ _).trans (by decide))

theorem decL (tr : Bool) : Statement (.decL tr) :=
  statement_of_row 0xFFFFFFFD 0x50000001 (by simp [opcodeRows, rowName])
    ((formatO_masked _ _ _).trans (by decide))

theorem init : Statement .init :=
  statement_of_row 0xFFFFFFFF 0x60000000 (by simp [opcodeRows, rowName]) (by decide)

end Sys2Proof.Laws.EncodingInRow
end

