-- ==== Sys2Proof/Laws/Vectors.lean ====
section
/-!
SUPPORT. The small lemmas of the vector operations and of the division loop.
-/
namespace Sys2Proof.Machine

@[simp] theorem length_zeros (n : Nat) : (zeros n).length = n := List.length_replicate

@[simp] theorem length_drop1 (v : Vec) : (drop1 v).length = v.length - 1 := by simp [drop1]

@[simp] theorem length_vec (x n : Nat) : (vec x n).length = n := by
  induction n with
  | zero => rfl
  | succ n ih => simp [vec, ih]

/-- A vector's number has no more bits than the vector. -/
theorem uint_lt_two_pow (v : Vec) : uint v < 2 ^ v.length := by
  induction v with
  | nil => simp [uint]
  | cons b v ih => simp only [uint, List.length_cons, pow_succ]; cases b <;> simp <;> omega

/-- Length and number determine a vector. -/
theorem eq_of_uint_eq : ∀ {v w : Vec}, v.length = w.length → uint v = uint w → v = w
  | [], [], _, _ => rfl
  | b :: v, c :: w, hl, hu => by
    have hl' : v.length = w.length := by simpa using hl
    have hv := uint_lt_two_pow v
    have hw := uint_lt_two_pow w
    simp only [uint, hl'] at hu hv
    have h : b = c ∧ uint v = uint w := by cases b <;> cases c <;> simp_all; all_goals omega
    rw [h.1, eq_of_uint_eq hl' h.2]

@[simp] theorem length_flipAt (v : Vec) (p : Nat) : (flipAt v p).length = v.length := by
  simp [flipAt]

@[simp] theorem length_unitVec (p : Nat) : (unitVec p).length = 7 := by
  simp [unitVec, Config.blockLen]

/-- A vector a load assembles is `vec` within R14's domain: the load check refuses every other. -/
theorem vec_domain_of_loadCheck {len bits : Nat} {v : Vec} (h : loadCheck len bits = .ok v) :
    bits < 2 ^ len ∧ v = vec bits len := by
  unfold loadCheck at h
  split at h
  · cases h
  · split at h
    · cases h
    · exact ⟨by omega, by cases h; rfl⟩

@[simp] theorem length_xorWindow (w d : Vec) : (xorWindow w d).length = w.length := by
  induction w generalizing d with
  | nil => cases d <;> rfl
  | cons x w ih => cases d with
    | nil => rfl
    | cons y d => simp [xorWindow, ih]

theorem bitAt_xorWindow (w d : Vec) (j : Nat) (h : d.length ≤ w.length) :
    bitAt (xorWindow w d) j = (bitAt w j ^^ bitAt d j) := by
  induction w generalizing d j with
  | nil => cases d <;> simp_all [xorWindow, bitAt]
  | cons x w ih => cases d with
    | nil => simp [xorWindow, bitAt]
    | cons y d => cases j with
      | zero => simp [xorWindow, bitAt]
      | succ j => simpa [xorWindow, bitAt] using ih d j (by simpa using h)

/-- A flip changes one element and no other (R15). -/
theorem bitAt_flipAt (v : Vec) (p j : Nat) (h : j < v.length) :
    bitAt (flipAt v p) j = (bitAt v j ^^ decide (j = p)) := by
  simp only [bitAt, flipAt, List.getD_eq_getElem?_getD, List.getElem?_modify,
    List.getElem?_eq_getElem h]
  by_cases hp : p = j
  · simp [hp]
  · simp [hp, Ne.symm hp]

@[simp] theorem length_divXor (w d : Vec) : (divXor w d).length = w.length := by
  unfold divXor; split <;> simp

/-- One unfolding of the division loop while its test holds. -/
theorem divLoop_step (d w : Vec) (fuel i : Nat) (hd : 1 ≤ d.length) (hw : d.length ≤ w.length) :
    divLoop d (fuel + 1) i w =
      ((divLoop d fuel (i + 1) (drop1 (divXor w d))).1,
        ⟨i, bitAt w 0, w, divXor w d⟩ :: (divLoop d fuel (i + 1) (drop1 (divXor w d))).2) := by
  have : w ≠ [] := by rintro rfl; simp only [List.length_nil] at hw; omega
  simp [divLoop, this, Nat.not_lt.mpr hw]

/-- The division loop where its test fails. -/
theorem divLoop_stop (d w : Vec) (fuel i : Nat) (hw : w.length < d.length) :
    divLoop d fuel i w = (w, []) := by
  cases fuel <;> simp [divLoop, hw]

/-- A property of the working dividend that each iteration keeps is one of the remainder. -/
theorem divLoop_invariant (d : Vec) (P : Nat → Vec → Prop) (hd : 1 ≤ d.length)
    (hstep : ∀ i w, P i w → d.length ≤ w.length → P (i + 1) (drop1 (divXor w d)))
    (fuel i : Nat) (w : Vec) (hf : w.length ≤ fuel) (h : P i w) :
    ∃ j, P j (divLoop d fuel i w).1 ∧ (divLoop d fuel i w).1.length < d.length := by
  induction fuel generalizing i w with
  | zero =>
    have hw : w.length < d.length := by omega
    exact ⟨i, by simpa [divLoop_stop d w 0 i hw] using ⟨h, hw⟩⟩
  | succ fuel ih =>
    by_cases hw : w.length < d.length
    · exact ⟨i, by simpa [divLoop_stop d w _ i hw] using ⟨h, hw⟩⟩
    · have hw : d.length ≤ w.length := by omega
      rw [divLoop_step d w fuel i hd hw]
      exact ih (i + 1) _ (by simp; omega) (hstep i w h hw)

/-- The remainder before padding has length `min(la, ld - 1)` (R100). -/
theorem length_remRaw (a d : Vec) (hd : 1 ≤ d.length) :
    (remRaw a d).length = min a.length (d.length - 1) := by
  obtain ⟨j, hj, hlt⟩ := divLoop_invariant d
    (fun _ w => min w.length (d.length - 1) = min a.length (d.length - 1)) hd
    (by intro i w h hw; simp; omega) a.length 0 a le_rfl rfl
  have : (remRaw a d) = (divLoop d a.length 0 a).1 := rfl
  rw [this]; omega

/-- Fixed-width mode always gives `ld - 1` bits (R102). -/
theorem length_remFixed (a d : Vec) (hd : 1 ≤ d.length) :
    (remFixed a d).length = d.length - 1 := by
  simp [remFixed, length_remRaw a d hd]

/-- A property of step records that every iteration's record has, under an invariant of the working
dividend, is one of every record emitted. -/
theorem divLoop_records (d : Vec) (P : Nat → Vec → Prop) (R : StepRecord → Prop)
    (hd : 1 ≤ d.length)
    (hstep : ∀ i w, P i w → d.length ≤ w.length →
      P (i + 1) (drop1 (divXor w d)) ∧ R ⟨i, bitAt w 0, w, divXor w d⟩)
    (fuel i : Nat) (w : Vec) (h : P i w) : ∀ r ∈ (divLoop d fuel i w).2, R r := by
  induction fuel generalizing i w with
  | zero => simp [divLoop]
  | succ fuel ih =>
    by_cases hw : w.length < d.length
    · simp [divLoop_stop d w _ i hw]
    · have hw : d.length ≤ w.length := by omega
      rw [divLoop_step d w fuel i hd hw]
      intro r hr
      rcases List.mem_cons.mp hr with rfl | hr
      · exact (hstep i w h hw).2
      · exact ih (i + 1) _ (hstep i w h hw).1 r hr

end Sys2Proof.Machine
end

