-- ==== Sys2Proof/Tests/Slice0.lean ====
section
/-!
SUPPORT. Tests of single steps against the spec's own vectors (95_test_vectors.md), words written
out from the encodings, ill-formed words for each check, and, for every statement that has
hypotheses, a witness that meets them together.
-/
namespace Sys2Proof.Tests

open Sys2Proof.Machine

/-- The next state of a result, if it is one. -/
def after : Result → Option State
  | .next s => some s
  | .fault _ => none
  | .refused _ => none

/-- The reset state after one INIT: the "ready state" of 95_test_vectors.md. -/
def readyState : State := initStep Config.hardware State.reset

/-- A state with vectors of given lengths and numbers in A and B. -/
def withOperands (la na lb nb : Nat) (s : State) : State :=
  { s with a := vec na la, b := vec nb lb }

/-! ## Words written out bit by bit from 30_encoding.md R77 -/

theorem test_decode_lda :
    decode 0b00010000000001110000000001011010#32 = .ok (.lda 7 0x5A) := by decide
theorem test_decode_lda_len_17 :
    decode 0b00010000000100010000000000000000#32 = .ok (.lda 17 0) := by decide
theorem test_decode_ldb :
    decode 0b00100000000001000000000000001011#32 = .ok (.ldb 4 0xB) := by decide
theorem test_decode_remF :
    decode 0b00110000000000000000000000000000#32 = .ok (.remF false) := by decide
theorem test_decode_remT_trace :
    decode 0b00110000000000000000000000000011#32 = .ok (.remT true) := by decide
theorem test_decode_enc_trace :
    decode 0b01000000000000000000000000000010#32 = .ok (.enc true) := by decide
theorem test_decode_decD :
    decode 0b01010000000000000000000000000000#32 = .ok (.decD false) := by decide
theorem test_decode_decL_trace :
    decode 0b01010000000000000000000000000011#32 = .ok (.decL true) := by decide
theorem test_decode_init :
    decode 0b01100000000000000000000000000000#32 = .ok .init := by decide
theorem test_encode_words :
    encode (.lda 4 0xB) = 0x1004000B ∧ encode (.ldb 16 0x8001) = 0x20108001 ∧
    encode (.remF true) = 0x30000002 ∧ encode (.remT false) = 0x30000001 ∧
    encode (.enc false) = 0x40000000 ∧ encode (.decD true) = 0x50000002 ∧
    encode (.decL false) = 0x50000001 ∧ encode .init = 0x60000000 := by decide
theorem test_decodeTableWord :
    decodeTableWord 32 0x50000001 = some (.decL false) ∧ decodeTableWord 32 0 = none := by decide

/-! ## Ill-formed words, one for each check (95_test_vectors.md section 2.10) -/

theorem test_wf_refuses_op_zero :
    CommandWord.opAssigned 0x00000000 = false ∧ CommandWord.wf 0x00000000 = false ∧
    decode 0x00000000 = .error .illegalCommand := by decide
theorem test_wf_refuses_op_seven :
    CommandWord.opAssigned 0x70000000 = false ∧ decode 0x70000000 = .error .illegalCommand := by
  decide
theorem test_wf_refuses_load_bit_21 :
    CommandWord.loadReservedClear 0x10200000 = false ∧ CommandWord.wf 0x10200000 = false ∧
    decode 0x10200000 = .error .illegalCommand := by decide
theorem test_wf_refuses_load_bit_27 :
    CommandWord.loadReservedClear 0x18040005 = false ∧
    decode 0x18040005 = .error .illegalCommand := by decide
theorem test_wf_refuses_operate_bit_2 :
    CommandWord.operateReservedClear 0x30000004 = false ∧ CommandWord.wf 0x30000004 = false ∧
    decode 0x30000004 = .error .illegalCommand := by decide
theorem test_wf_refuses_enc_sel :
    CommandWord.encSelClear 0x40000001 = false ∧ CommandWord.wf 0x40000001 = false ∧
    decode 0x40000001 = .error .illegalCommand := by decide
theorem test_wf_refuses_init_bit_1 :
    CommandWord.initReservedClear 0x60000002 = false ∧ CommandWord.wf 0x60000002 = false ∧
    decode 0x60000002 = .error .illegalCommand := by decide
theorem test_wf_accepts_decL_trace : CommandWord.wf 0x50000003 = true := by decide
theorem test_vec_of_17_bits_does_not_fit :
    Vec.fits (zeros 17) = false ∧ Vec.fits (zeros 16) = true := by decide
theorem test_memory_wf_refuses_unsorted_zero_wide_and_far_cells :
    Memory.wf [(2, 9), (1, 9)] = false ∧ Memory.wf [(1, 0)] = false ∧
    Memory.wf [(1, 16)] = false ∧ Memory.wf [(8, 9)] = false ∧
    Memory.wf [(1, 9), (2, 9)] = true := by decide

/-! ## Loads (95_test_vectors.md section 2.2) -/

theorem test_lda_keeps_leading_zeros :
    after (exec (.lda 3 1) State.reset) =
      some { State.reset with a := [false, false, true] } := by decide
theorem test_lda_length_before_alphabet :
    after (exec (.lda 31 0xFFFF) State.reset) = some { State.reset with err := 1 } := by decide
theorem test_ldb_loads :
    (after (exec (.ldb 4 0xB) State.reset)).map (fun s => (s.a, s.b, s.err)) =
      some ([], [true, false, true, true], 0) := by decide
theorem test_ldb_alphabet :
    after (exec (.ldb 7 0x80) State.reset) = some { State.reset with err := 2 } := by decide

/-! ## REM.F and REM.T (section 2.3, V-R3, V-R4) -/

theorem test_remF_generality :
    (after (exec (.remF true) (withOperands 10 0x35B 5 0x13 State.reset))).map
        (fun s => (vecBus s.q, s.trace.map packRecord)) =
      some (0x4000B, [0x02A035B013B, 0x069013B000B, 0x088000B000B, 0x0C7000B000B, 0x106000B000B,
        0x145000B000B]) := by decide
theorem test_remF_refuses_leading_zero :
    (after (exec (.remF false) (withOperands 4 0xB 4 0x5 State.reset))).map
        (fun s => (s.q, s.err)) = some ([], 6) := by decide
theorem test_remT_trims :
    (after (exec (.remT false) (withOperands 7 0x5A 4 0xB State.reset))).map
        (fun s => (s.q, s.err)) = some ([true, false], 0) := by decide
theorem test_remT_of_codeword_is_empty :
    (after (exec (.remT true) (withOperands 4 0xD 1 1 State.reset))).map
        (fun s => (s.q, s.trace.map packRecord)) =
      some ([], [0x024000D0005, 0x06300050001, 0x08200010001, 0x0E100010000]) := by decide

/-! ## ENC (section 2.4, V-E2, V-E3) -/

theorem test_enc_trace :
    (after (exec (.enc true) (withOperands 4 0xF 0 0 readyState))).map
        (fun s => (vecBus s.q, s.trace.map packRecord)) =
      some (0x7007F, [0x02700780020, 0x0660020000C, 0x085000C000C, 0x0E4000C0007]) := by decide
theorem test_enc_before_init :
    (after (exec (.enc false) (withOperands 4 0xB 0 0 State.reset))).map
        (fun s => (s.q, status s)) = some ([], 0x0704) := by decide

/-! ## INIT (section 2.5, V-I1 to V-I3) -/

theorem test_init_from_reset :
    (after (exec .init State.reset)).map
        (fun s => (status s, s.lref, tabAddresses.map (memRead s.tab))) =
      some (0x0710, 6, [⟨false, 0⟩, ⟨true, 6⟩, ⟨true, 5⟩, ⟨true, 3⟩, ⟨true, 4⟩, ⟨true, 0⟩,
        ⟨true, 2⟩, ⟨true, 1⟩]) := by decide
theorem test_init_twice :
    after (exec .init readyState) = some { readyState with err := 5 } := by decide
theorem test_init_fault_with_another_generator :
    initStep { Config.hardware with g := [true, false, false, true] } State.reset =
      { State.reset with fatal := true, err := 3 } ∧
    status (initStep { Config.hardware with g := [true, false, false, true] } State.reset) =
      0x0723 := by decide
theorem test_table_check_of_other_generators :
    [[true, true, false, true], [true, false, false, true], [true, true, true, true],
      [true, false, false, false]].map (fun g => tableOk (buildTable g)) =
      [true, false, false, false] := by decide

/-! ## DEC.D and DEC.L (sections 2.6 and 2.7) -/

theorem test_decD_corrects :
    (after (exec (.decD true) (withOperands 7 0x5A 0 0 readyState))).map
        (fun s => (vecBus s.q, status s, s.trace.map packRecord)) =
      some (0x70058, 0x1590, [0x027005A0002, 0x04600020002, 0x08500020002, 0x0C400020002]) := by
  decide
theorem test_decD_with_an_invalid_entry_is_uncorrectable :
    (after (exec (.decD false) (withOperands 7 0x5A 0 0 { readyState with tab := [] }))).map
        (fun s => (vecBus s.q, s.outcome, s.pos, s.syn, s.err)) =
      some (0x7005A, .uncorrectable, 7, 2, 0) := by decide
theorem test_decL_corrects_without_trace :
    (after (exec (.decL true) (withOperands 7 0x18 0 0 readyState))).map
        (fun s => (vecBus s.q, status s, s.trace)) = some (0x70058, 0x4090, []) := by decide
theorem test_decL_length :
    (after (exec (.decL false) (withOperands 8 0xB4 0 0 readyState))).map status =
      some 0x0711 := by decide
theorem test_lsyn_with_parity_check_taps :
    lsyn Config.hardware.h (vec 0x58 7) = [true, false, true, true] := by decide
theorem test_locate_off_the_orbit :
    [1, 3, 5, 7, 9, 11, 13, 15].map (fun x => locate Config.hardware.lt 6 (vec x 4)) =
      [none, none, none, none, none, none, none, none] := by decide

/-! ## The step -/

theorem test_step_runs_the_word_placed :
    after (step (State.reset.withFetchWord 32 0x1007005A)) =
      some { State.reset with a := [true, false, true, true, false, true, false] } := by decide
theorem test_step_illegal_word :
    after (step (readyState.withFetchWord 32 0x10200000)) = some { readyState with err := 7 } := by
  decide
theorem test_step_reset :
    after (step { readyState with host := [.reset, .issue 0] }) =
      some { State.reset with host := [.issue 0] } := by decide

/-! ## Assembler text (30_encoding.md R80, R81) -/

theorem test_asm_load_with_comment :
    asmLine ['L', 'D', 'A', ' ', '7', ',', ' ', '0', 'x', '0', '0', '5', 'A', ' ', ';', 'x'] =
      some 0x1007005A := by decide
theorem test_asm_traced :
    asmLine ['D', 'E', 'C', '.', 'L', ' ', 'T', 'R', 'A', 'C', 'E'] = some 0x50000003 ∧
    asmLine ['I', 'N', 'I', 'T', ' ', 'T', 'R', 'A', 'C', 'E'] = none := by decide
theorem test_asm_word :
    asmLine ['.', 'w', 'o', 'r', 'd', ' ', '0', 'x', '4', '0', '0', '0', '0', '0', '0', '1'] =
      some 0x40000001 := by decide
theorem test_asm_bit_string :
    asmLine ['L', 'D', 'A', ' ', quoteChar, '1', '0', '1', '1', quoteChar] = some 0x1004000B ∧
    asmLine ['L', 'D', 'B', ' ', quoteChar, quoteChar] = some 0x20000000 ∧
    asmLine ['L', 'D', 'A', ' ', quoteChar, '2', quoteChar] = none := by decide

/-! ## Witnesses: a concrete state and operands that meet each statement's hypotheses -/

/-- The ready state with any operand that fits is coherent and constructed. -/
theorem witness_coherent_constructed (v : Vec) (hv : v.length ≤ 16) :
    ({ readyState with a := v } : State).Coherent ∧
    ({ readyState with a := v } : State).constructed := by
  refine ⟨⟨hv, ?_, ?_, ?_, ?_, ?_, ?_, ?_, ?_, ?_, ?_⟩, ?_⟩
  · show readyState.b.length ≤ 16; decide
  · show readyState.q.length < 16; decide
  · show readyState.err.toNat ≤ 7; decide
  · show ¬ (readyState.ready = true ∧ readyState.fatal = true); decide
  · show Memory.wf readyState.tab = true; decide
  · intro _
    show (∀ k, memRead readyState.tab k = tableImage k) ∧ readyState.lref = 6
    decide
  · intro h
    exact absurd (show readyState.ready = false from h) (by decide)
  · intro h
    exact absurd (show readyState.outcome = .received by decide) h
  · show readyState.pos = 7 ∧ readyState.syn = 0; decide
  · intro r hr
    exact absurd (show r ∈ readyState.trace from hr)
      (by rw [show readyState.trace = [] by decide]; simp)
  · show readyState.ready = true ∧ readyState.fatal = false; decide

theorem witness_EncodeInvertsDecode : decode 0x101FFFFF = .ok (.lda 31 0xFFFF) := by decide
theorem witness_IllegalWordsAreRefused :
    decode 0xFFFFFFFF = .error .illegalCommand ∧ decode 0x60000001 = .error .illegalCommand := by
  decide
theorem witness_StepRunsDecodedCommand :
    (∃ s : State, s.host = .issue 0x60000000 :: [.reset] ∧ decode 0x60000000 = .ok .init) ∧
    ∃ s : State, s.host = .issue 0 :: [] ∧ decode 0 = .error .illegalCommand :=
  ⟨⟨{ readyState with host := [.issue 0x60000000, .reset] }, rfl, by decide⟩,
    ⟨{ readyState with host := [.issue 0] }, rfl, by decide⟩⟩
theorem witness_ResetActionRestoresRegisters :
    ∃ s : State, s.ready = true ∧ s.host = .reset :: [.issue 0] :=
  ⟨{ readyState with host := [.reset, .issue 0] }, by decide, rfl⟩
theorem witness_IdleCoreKeepsState : ∃ s : State, s.ready = true ∧ s.host = [] :=
  ⟨readyState, by decide, by decide⟩
theorem witness_UintAndVecAreInverse : 0xFFFF < 2 ^ 16 ∧ 0 < 2 ^ 0 := by decide
theorem witness_VectorBusIsRightAligned :
    ∃ v : Vec, v.length ≤ 16 ∧ 0 < v.length ∧ v.length ≤ 15 ∧ (15 : Nat) < 16 :=
  ⟨zeros 15, by decide⟩
theorem witness_PackedRecordFields :
    ∃ r : StepRecord, r.offset ≤ 15 ∧ 1 ≤ r.before.length ∧ r.before.length ≤ 16 ∧
      r.after.length = r.before.length :=
  ⟨⟨15, true, zeros 16, zeros 16⟩, by decide⟩
theorem witness_HostReadsEveryRegister :
    (zeros 16).length ≤ 16 ∧
    hostView { readyState with a := zeros 16, tab := [] } =
      hostView { readyState with a := zeros 16 } ∧
    hostView { readyState with lref := 0 } ≠ hostView readyState := by decide
theorem witness_LdaLoadsOrRefuses :
    ((16#5).toNat ≤ 16 ∧ (0xFFFF#16).toNat < 2 ^ (16#5).toNat ∧ 15 < (16#5).toNat) ∧
    16 < (17#5).toNat ∧
    ((0#5).toNat ≤ 16 ∧ 2 ^ (0#5).toNat ≤ (1#16).toNat) := by decide
theorem witness_LdbLoadsOrRefuses :
    ((0#5).toNat ≤ 16 ∧ (0#16).toNat < 2 ^ (0#5).toNat) ∧
    ((1#5).toNat ≤ 16 ∧ (1#16).toNat < 2 ^ (1#5).toNat ∧ 0 < (1#5).toNat) ∧
    16 < (31#5).toNat ∧
    ((15#5).toNat ≤ 16 ∧ 2 ^ (15#5).toNat ≤ (0x8000#16).toNat) := by decide
theorem witness_RemFixedIsPolynomialRemainder :
    Config.hardware.g.head? = some true ∧ ([true] : Vec).head? = some true := by decide
theorem witness_RemFWritesFixedRemainder :
    (withOperands 7 0x5A 4 0xB State.reset).b.head? = some true ∧
    (withOperands 7 0x5A 4 0x5 State.reset).b.head? ≠ some true ∧
    State.reset.b.head? ≠ some true ∧
    (withOperands 7 0x5A 4 0xB State.reset).a = [true, false, true, true, false, true, false] ∧
    (withOperands 7 0x5A 4 0xB State.reset).b = [true, false, true, true] := by decide
theorem witness_RemTWritesTrimmedRemainder :
    (withOperands 2 0x2 4 0xB State.reset).b.head? = some true ∧
    (withOperands 2 0x2 4 0xB State.reset).a.length <
      (withOperands 2 0x2 4 0xB State.reset).b.length ∧
    (withOperands 4 0xB 1 0 State.reset).b.head? ≠ some true := by decide
theorem witness_RemTWritesTrimmedRemainder_zero_remainder :
    polyOf (withOperands 4 0xB 4 0xB State.reset).b ∣
      polyOf (withOperands 4 0xB 4 0xB State.reset).a :=
  dvd_rfl
theorem witness_DegenerateInputsNeverFail :
    Config.hardware.g.head? = some true ∧ Config.hardware.g.length ≤ 7 ∧
    ([true, false] : Vec).length < Config.hardware.g.length ∧
    (withOperands 0 0 4 0xB State.reset).b = Config.hardware.g := by decide
theorem witness_DivisionIterationCount :
    Config.hardware.g.head? = some true ∧ (zeros 7).length = 7 ∧ Config.hardware.g.length = 4 ∧
    (zeros 16).length ≤ 16 ∧ (zeros 16).length = 16 := by decide
theorem witness_StepRecordsReplayTheDivision :
    Config.hardware.g.head? = some true ∧
    (remTrace (vec 0x5A 7) Config.hardware.g)[0]? =
      some ⟨0, true, vec 0x5A 7, vec 0x02 7⟩ ∧
    (remTrace (vec 0x5A 7) Config.hardware.g)[3]? =
      some ⟨3, false, vec 0x2 4, vec 0x2 4⟩ ∧
    (remTrace (vec 0x5A 7) Config.hardware.g).length = 3 + 1 := by decide
theorem witness_TracingChangesNoRegister :
    ∃ s t, exec (Instr.decD true) s = .next t ∧ t.trace ≠ s.trace :=
  ⟨withOperands 7 0x5A 0 0 readyState, _, rfl, by decide⟩
theorem witness_RecordsEmittedByCommand :
    ∃ s t, exec (.enc true) s = .next t ∧ t.err = 0 ∧ t.trace ≠ [] :=
  ⟨withOperands 4 0xB 0 0 readyState, _, rfl, by decide⟩
theorem witness_EncWritesSystematicCodeword :
    (readyState.fatal = false ∧ readyState.ready = true ∧
      (withOperands 4 0xB 0 0 readyState).a.length = 4 ∧
      (withOperands 4 0xB 0 0 readyState).a = [true, false, true, true]) ∧
    readyState.a.length ≠ 4 ∧
    (State.reset.fatal = false ∧ State.reset.ready = false) ∧
    ({ State.reset with fatal := true } : State).fatal = true := by decide
theorem witness_CodewordIsDataThenParity :
    Config.hardware.g.length = 4 ∧ bitAt Config.hardware.g 0 = true ∧ (zeros 4).length = 4 := by
  decide
theorem witness_SixteenCodewords : (vec 0x58 7).length = 7 := by decide
theorem witness_CodewordsAreCyclic : isCodeword (vec 0x58 7) := ⟨by decide, by decide⟩
theorem witness_BuilderKeepsLastPosition :
    (Config.hardware.g.length = 4 ∧
      ∀ p, p < 7 → uint (remFixed (unitVec p) Config.hardware.g) ≠ (0#3).toNat) ∧
    (uint (remFixed (unitVec 6) Config.hardware.g) = (1#3).toNat ∧
      ∀ p', 6 < p' → p' < 7 → uint (remFixed (unitVec p') Config.hardware.g) ≠ (1#3).toNat) ∧
    uint (remFixed (unitVec 0) [true, false, false, true]) =
      uint (remFixed (unitVec 6) [true, false, false, true]) := by
  refine ⟨⟨by decide, by decide⟩, ⟨by decide, fun p' h h' => by omega⟩, by decide⟩
theorem witness_TableCheckIsBijection :
    Config.hardware.g.length = 4 ∧ bitAt Config.hardware.g 0 = true ∧
    tableOk (buildTable Config.hardware.g) = true := by decide
theorem witness_InitUnderAnyConstants :
    (State.reset.fatal = false ∧ State.reset.ready = false) ∧
    tableOk (buildTable [true, false, false, true]) = false ∧
    tableOk (buildTable Config.hardware.g) = true ∧
    (readyState.fatal = false ∧ readyState.ready = true) := by decide
theorem witness_InitBuildsOnce :
    (State.reset.fatal = false ∧ State.reset.ready = false) ∧
    (readyState.fatal = false ∧ readyState.ready = true) ∧
    ({ State.reset with fatal := true } : State).fatal = true := by decide
theorem witness_DecDDecodesByTable :
    (readyState.fatal = false ∧ readyState.ready = true ∧
      (withOperands 7 0x5A 0 0 readyState).a.length = 7 ∧
      (withOperands 7 0x5A 0 0 readyState).a =
        [true, false, true, true, false, true, false] ∧
      memRead readyState.tab 2 = ⟨true, 5⟩) ∧
    readyState.a.length ≠ 7 ∧ (State.reset.fatal = false ∧ State.reset.ready = false) ∧
    ({ readyState with fatal := true } : State).fatal = true := by decide
/-- The three transitions: a zero syndrome, a valid entry with a position of the word, and an invalid
entry. -/
theorem witness_DecDDecodesByTable_transitions :
    dsyn Config.hardware.g (vec 0x58 7) = 0 ∧
    (dsyn Config.hardware.g (vec 0x5A 7) ≠ 0 ∧
      (memRead readyState.tab (dsyn Config.hardware.g (vec 0x5A 7))).v = true ∧
      (memRead readyState.tab (dsyn Config.hardware.g (vec 0x5A 7))).pos ≠ 7) ∧
    (memRead [] (dsyn Config.hardware.g (vec 0x5A 7))).v = false := by decide
theorem witness_DecDReadsOneEntry :
    ∃ t, exec (.decD true) (withOperands 7 0x5A 0 0 readyState) = .next t ∧ t.err = 0 ∧
      memRead [(2, 13)] (dsyn Config.hardware.g (withOperands 7 0x5A 0 0 readyState).a) =
        memRead readyState.tab
          (dsyn Config.hardware.g (withOperands 7 0x5A 0 0 readyState).a) :=
  ⟨_, rfl, by decide, by decide⟩
theorem witness_EveryWordHasOneNearestCodeword : (vec 0x5A 7).length = 7 := by decide
theorem witness_TwoFlipsGiveAnotherCodeword :
    ∃ s : State, s.Coherent ∧ s.constructed ∧ isCodeword (vec 0x58 7) ∧ (0 : Nat) < 7 ∧
      (3 : Nat) < 7 ∧ (0 : Nat) ≠ 3 ∧ s.a = flipAt (flipAt (vec 0x58 7) 0) 3 :=
  have h := witness_coherent_constructed (flipAt (flipAt (vec 0x58 7) 0) 3) (by decide)
  ⟨_, h.1, h.2, ⟨by decide, by decide⟩, by decide, by decide, by decide, rfl⟩
theorem witness_DecLDecodesBySearch :
    (readyState.fatal = false ∧ readyState.ready = true ∧
      (withOperands 7 0x18 0 0 readyState).a.length = 7 ∧
      lsyn Config.hardware.lt (vec 0x18 7) ≠ [false, false, false, false] ∧
      locate Config.hardware.lt readyState.lref (lsyn Config.hardware.lt (vec 0x18 7)) = some 6 ∧
      locate Config.hardware.lt 0 (lsyn Config.hardware.lt (vec 0x18 7)) = none) ∧
    readyState.a.length ≠ 7 ∧ (State.reset.fatal = false ∧ State.reset.ready = false) := by decide
theorem witness_LfsrComputesPolynomialRemainder :
    Config.hardware.lt.length = 5 ∧ Config.hardware.lt.head? = some true ∧
    (zeros 4).length = 4 ∧ (zeros 7).length = 7 := by decide
theorem witness_LfsrSyndromeIsShiftedRemainder : (vec 0x5A 7).length = 7 := by decide
theorem witness_ReferenceOrbit :
    (vec 0x5A 7).length = 7 ∧
    lsyn Config.hardware.lt (vec 0x5A 7) ≠ [false, false, false, false] := by decide
theorem witness_SearchResolvesEverySyndrome :
    (∃ s t : State, s.Coherent ∧ s.constructed ∧ exec (.decL false) s = .next t ∧ t.err = 0) ∧
    (vec 1 4).length = 4 ∧ bitAt (vec 1 4) 3 = true :=
  have h := witness_coherent_constructed (vec 0x5A 7) (by decide)
  ⟨⟨_, _, h.1, h.2, rfl, by decide⟩, by decide, by decide⟩
theorem witness_OnlyTheseTapsGiveASyndrome :
    Config.hardware.h.length = 5 ∧ Config.hardware.h.head? = some true := by decide
theorem witness_DecodeOfEncodeFindsNoError :
    ∃ s : State, s.Coherent ∧ s.constructed ∧ (vec 0xB 4).length = 4 ∧
      s.a = encodeWord Config.hardware.g (vec 0xB 4) :=
  have h := witness_coherent_constructed (encodeWord Config.hardware.g (vec 0xB 4)) (by decide)
  ⟨_, h.1, h.2, by decide, rfl⟩
theorem witness_SingleErrorIsCorrected :
    ∃ s : State, s.Coherent ∧ s.constructed ∧ (vec 0xB 4).length = 4 ∧ (6 : Nat) < 7 ∧
      s.a = flipAt (encodeWord Config.hardware.g (vec 0xB 4)) 6 :=
  have h := witness_coherent_constructed
    (flipAt (encodeWord Config.hardware.g (vec 0xB 4)) 6) (by decide)
  ⟨_, h.1, h.2, by decide, by decide, rfl⟩
theorem witness_StrategiesAgreeOnEveryWord :
    ∃ s : State, s.Coherent ∧ s.constructed ∧ s.a.length = 7 :=
  have h := witness_coherent_constructed (vec 0x10 7) (by decide)
  ⟨_, h.1, h.2, by decide⟩
theorem witness_DecodeFlipsAtMostOneBit :
    ∃ (s t : State) (i : Instr), s.Coherent ∧ s.constructed ∧ s.a.length = 7 ∧
      (i = .decD false ∨ i = .decL false) ∧ exec i s = .next t :=
  have h := witness_coherent_constructed (vec 0x10 7) (by decide)
  ⟨_, _, .decL false, h.1, h.2, by decide, .inr rfl, rfl⟩
theorem witness_CommandsWriteOnlyTheirRow :
    (∃ t, exec (.remF false) State.reset = .next t ∧ t.err ≠ 0) ∧
    (∃ t, exec .init State.reset = .next t ∧ t.err = 0) ∧
    decode 0 = .error .illegalCommand :=
  ⟨⟨_, rfl, by decide⟩, ⟨_, rfl, by decide⟩, by decide⟩
theorem witness_FatalLocksEncodeDecodeInit :
    ∃ s t t' : State, s.fatal = true ∧
      exec (.lda 4 0xB) { s with fatal := false } = .next t ∧
      s.host.head? ≠ some .reset ∧ step s = .next t' :=
  ⟨{ State.reset with fatal := true, host := [.issue 0x60000000] }, _, _, rfl, rfl, by decide,
    rfl⟩
theorem witness_BuiltTableIsImmutable :
    ∃ s t : State, s.ready = true ∧ s.host.head? ≠ some .reset ∧ step s = .next t :=
  ⟨{ readyState with host := [.issue 0x60000000] }, _, by decide, by decide, rfl⟩
theorem witness_ResultRegistersAreNeverRead :
    ∃ s s' t t' : State, s.a = s'.a ∧ s.b = s'.b ∧ s.ready = s'.ready ∧ s.fatal = s'.fatal ∧
      s.tab = s'.tab ∧ s.lref = s'.lref ∧ s.q ≠ s'.q ∧ exec (.decL false) s = .next t ∧
      exec (.decL false) s' = .next t' ∧ t.err = 0 :=
  ⟨withOperands 7 0x5A 0 0 readyState,
    { withOperands 7 0x5A 0 0 readyState with q := [true], syn := 9, err := 5 }, _, _,
    rfl, rfl, rfl, rfl, rfl, rfl, by decide, rfl, rfl, by decide⟩
theorem witness_OnlyRemReadsB :
    (∃ t, exec (.enc false) (withOperands 4 0xB 4 0xB readyState) = .next t ∧ t.err = 0) ∧
    (∃ t, exec (.ldb 4 0xB) readyState = .next t ∧ t.err = 0) ∧
    ∃ t, exec (.ldb 17 0) readyState = .next t ∧ t.err ≠ 0 :=
  ⟨⟨_, rfl, by decide⟩, ⟨_, rfl, by decide⟩, ⟨_, rfl, by decide⟩⟩
theorem witness_StepKeepsCoherence :
    ∃ s t : State, s.Coherent ∧ step s = .next t :=
  have h := witness_coherent_constructed (vec 0x5A 7) (by decide)
  ⟨_, _, h.1, rfl⟩
theorem witness_BitStringLoadsItsBits :
    ((∀ c ∈ (['1', '0'] : List Char), c ≠ ' ' ∧ c ≠ '\t' ∧ c ≠ ',' ∧ c ≠ ';') ∧
      (∀ c ∈ (['1', '0'] : List Char), c = '0' ∨ c = '1') ∧ (['1', '0'] : List Char).length ≤ 16) ∧
    ((∀ c ∈ (['2'] : List Char), c ≠ ' ' ∧ c ≠ '\t' ∧ c ≠ ',' ∧ c ≠ ';') ∧
      ∃ c ∈ (['2'] : List Char), c ≠ '0' ∧ c ≠ '1') ∧
    16 < (List.replicate 17 '0').length := by simp

end Sys2Proof.Tests
end

/-! ## Numbers, vectors and what the host reads (00_scope.md R14, R18) -/

namespace Sys2Proof.Machine

/-- R14 as a sum over positions, on the list itself. -/
theorem uint_eq_sum (v : Vec) :
    uint v = ∑ i ∈ Finset.range v.length, (bitAt v i).toNat * 2 ^ (v.length - 1 - i) := by
  induction v with
  | nil => rfl
  | cons b v ih =>
    rw [uint, ih, List.length_cons, Finset.sum_range_succ', add_comm]
    refine congrArg (· + b.toNat * 2 ^ v.length) (Finset.sum_congr rfl fun i _ => ?_)
    have htail : v.length - (i + 1) = v.length - 1 - i := by omega
    rw [Nat.add_sub_cancel, htail]
    rfl

/-- `vec` takes the low bits of any number. -/
theorem uint_vec (x n : Nat) : uint (vec x n) = x % 2 ^ n := by
  induction n with
  | zero => simp [vec, uint, Nat.mod_one]
  | succ n ih =>
    rw [vec, uint, ih, length_vec, Nat.toNat_testBit, Nat.mod_pow_succ]
    ring

theorem uint_vec_of_lt {x n : Nat} (h : x < 2 ^ n) : uint (vec x n) = x := by
  rw [uint_vec, Nat.mod_eq_of_lt h]

@[simp] theorem vec_uint (v : Vec) : vec (uint v) v.length = v :=
  eq_of_uint_eq (length_vec _ _) (uint_vec_of_lt (uint_lt_two_pow v))

/-- Settles O11: the sum by induction on the vector; the inverse because length and number determine
a vector. -/
theorem uintAndVecAreInverse : Obligations.UintAndVecAreInverse :=
  ⟨uint_eq_sum, rfl, fun x n h => ⟨length_vec x n, uint_vec_of_lt h⟩,
    fun v => ⟨uint_lt_two_pow v, vec_uint v⟩, by decide, by decide⟩

/-- A concatenation of fields is read field by field. -/
theorem bitVec_append_inj_iff {m n : Nat} {x x' : BitVec m} {y y' : BitVec n} :
    x ++ y = x' ++ y' ↔ x = x' ∧ y = y' := by
  refine ⟨fun h => ?_, by rintro ⟨rfl, rfl⟩; rfl⟩
  have hx := congrArg (BitVec.extractLsb' n m) h
  have hy := congrArg (BitVec.setWidth n) h
  simp only [BitVec.extractLsb'_append_eq_left] at hx
  simp only [BitVec.setWidth_append_eq_right] at hy
  exact ⟨hx, hy⟩

/-- The bus value loses nothing of a vector that a register can hold (R24). -/
theorem vecBus_inj {v w : Vec} (hv : v.length ≤ 16) (hw : w.length ≤ 16) :
    vecBus v = vecBus w ↔ v = w := by
  refine ⟨fun h => ?_, fun h => h ▸ rfl⟩
  obtain ⟨hlen, hnum⟩ := bitVec_append_inj_iff.mp h
  have hlt : ∀ u : Vec, u.length ≤ 16 → uint u < 2 ^ 16 := fun u hu =>
    (uint_lt_two_pow u).trans_le (Nat.pow_le_pow_right two_pos hu)
  refine eq_of_uint_eq ?_ ?_
  · have := congrArg BitVec.toNat hlen
    simp only [BitVec.toNat_ofNat] at this
    omega
  · have := congrArg BitVec.toNat hnum
    rwa [BitVec.toNat_ofNat, BitVec.toNat_ofNat, Nat.mod_eq_of_lt (hlt v hv),
      Nat.mod_eq_of_lt (hlt w hw)] at this

theorem outcomeCode_inj {o o' : DecodeState} : outcomeCode o = outcomeCode o' ↔ o = o' := by
  cases o <;> cases o' <;> decide

/-- STATUS determines every field it packs (R32). -/
theorem status_eq_iff (s t : State) :
    status s = status t ↔ s.syn = t.syn ∧ s.pos = t.pos ∧ s.outcome = t.outcome ∧
      s.fatal = t.fatal ∧ s.ready = t.ready ∧ s.err = t.err := by
  constructor
  · intro h
    obtain ⟨h, herr⟩ := bitVec_append_inj_iff.mp h
    obtain ⟨h, hready⟩ := bitVec_append_inj_iff.mp h
    obtain ⟨h, hfatal⟩ := bitVec_append_inj_iff.mp h
    obtain ⟨h, houtcome⟩ := bitVec_append_inj_iff.mp h
    obtain ⟨h, hpos⟩ := bitVec_append_inj_iff.mp h
    obtain ⟨-, hsyn⟩ := bitVec_append_inj_iff.mp h
    exact ⟨hsyn, hpos, outcomeCode_inj.mp houtcome, BitVec.ofBool_eq_iff_eq.mp hfatal,
      BitVec.ofBool_eq_iff_eq.mp hready, herr⟩
  · rintro ⟨hsyn, hpos, houtcome, hfatal, hready, herr⟩
    rw [status, status, hsyn, hpos, houtcome, hfatal, hready, herr]

/-- Settles O57, read by read: the bus for A, B and Q, STATUS for the fields, LREF itself. -/
theorem hostReadsEveryRegister : Obligations.HostReadsEveryRegister := by
  intro s t hsa hsb hsq hta htb htq
  simp only [hostView, HostView.mk.injEq, vecBus_inj hsa hta, vecBus_inj hsb htb,
    vecBus_inj hsq htq, status_eq_iff]
  tauto

/-- A step with a command word pending accepts the word. -/
theorem step_of_issue {s : State} {cw : CommandWord} {rest : List HostAction}
    (h : s.host = .issue cw :: rest) : step s = acceptWord cw { s with host := rest } := by
  simp [step, h]

/-- Settles O6, by the two outcomes of the decoder. -/
theorem stepRunsDecodedCommand : Obligations.StepRunsDecodedCommand := by
  intro s cw rest hhost
  rw [step_of_issue hhost]
  exact ⟨fun i hi => by simp [acceptWord, hi], fun hi => by simp [acceptWord, hi, raise, errCode]⟩

end Sys2Proof.Machine

/-! ## Vectors as polynomials over GF(2) (00_scope.md R8, R13; 41_remainder.md R106) -/

namespace Sys2Proof.Machine

section
open Polynomial

@[simp] theorem polyOf_nil : polyOf [] = 0 := rfl

theorem polyOf_cons (b : Bit) (v : Vec) :
    polyOf (b :: v) = (if b then X ^ v.length else 0) + polyOf v := rfl

@[simp] theorem polyOf_false_cons (v : Vec) : polyOf (false :: v) = polyOf v := by
  simp [polyOf_cons]

@[simp] theorem polyOf_zeros_append (n : Nat) (v : Vec) : polyOf (zeros n ++ v) = polyOf v := by
  induction n with
  | zero => rfl
  | succ n ih => simpa [zeros, List.replicate_succ] using ih

theorem polyOf_append (v w : Vec) : polyOf (v ++ w) = polyOf v * X ^ w.length + polyOf w := by
  induction v with
  | nil => simp
  | cons b v ih =>
    rw [List.cons_append, polyOf_cons, polyOf_cons, ih, List.length_append, pow_add, add_mul,
      ite_mul, zero_mul, add_assoc]

theorem degree_polyOf_lt (v : Vec) : (polyOf v).degree < v.length := by
  induction v with
  | nil => simp
  | cons b v ih =>
    have hlt : (v.length : WithBot ℕ) < (b :: v).length := by
      exact_mod_cast v.length.lt_succ_self
    refine (degree_add_le _ _).trans_lt (max_lt ?_ (ih.trans hlt))
    cases b
    · simp
    · simpa using hlt

theorem monic_polyOf {d : Vec} (hd : d.head? = some true) : (polyOf d).Monic := by
  obtain ⟨v, rfl⟩ := List.head?_eq_some_iff.mp hd
  exact monic_X_pow_add (degree_polyOf_lt v)

/-- A leading 1 fixes the degree (R101). -/
theorem degree_polyOf {d : Vec} (hd : d.head? = some true) :
    (polyOf d).degree = (d.length - 1 : ℕ) := by
  obtain ⟨v, rfl⟩ := List.head?_eq_some_iff.mp hd
  rw [polyOf_cons, if_pos rfl, degree_add_eq_left_of_degree_lt, degree_X_pow]
  · rfl
  · simpa using degree_polyOf_lt v

theorem polyOf_eq_zero_iff {v : Vec} : polyOf v = 0 ↔ v = zeros v.length := by
  induction v with
  | nil => simp [zeros]
  | cons b v ih =>
    cases b
    · simpa [zeros, List.replicate_succ] using ih
    · simp [zeros, List.replicate_succ, (monic_polyOf (d := true :: v) rfl).ne_zero]

/-- R12: exclusive or of two coefficients is their sum. -/
theorem ite_xor_eq_add (x y : Bit) (p : (ZMod 2)[X]) :
    (if x ^^ y then p else 0) = (if x then p else 0) + if y then p else 0 := by
  cases x <;> cases y <;> simp [CharTwo.add_self_eq_zero]

/-- Xoring the divisor into the window adds a multiple of it (R100). -/
theorem polyOf_xorWindow {w d : Vec} (h : d.length ≤ w.length) :
    polyOf (xorWindow w d) = polyOf w + X ^ (w.length - d.length) * polyOf d := by
  induction w generalizing d with
  | nil => simp [List.length_eq_zero_iff.mp (Nat.le_zero.mp h), xorWindow]
  | cons x w ih =>
    cases d with
    | nil => simp [xorWindow]
    | cons y d =>
      have h : d.length ≤ w.length := by simpa using h
      have hpow : (X ^ w.length : (ZMod 2)[X]) = X ^ (w.length - d.length) * X ^ d.length := by
        rw [← pow_add, Nat.sub_add_cancel h]
      rw [xorWindow, polyOf_cons, length_xorWindow, ite_xor_eq_add, ih h, polyOf_cons, polyOf_cons,
        List.length_cons, List.length_cons, Nat.add_sub_add_right, hpow, mul_add, mul_ite, mul_zero]
      ring

/-- After the conditional xor of one iteration the leading element is 0 (R100). -/
theorem bitAt_divXor_zero {w d : Vec} (hd : d.head? = some true) (h : d.length ≤ w.length) :
    bitAt (divXor w d) 0 = false := by
  have hlead : bitAt d 0 = true := by
    obtain ⟨v, rfl⟩ := List.head?_eq_some_iff.mp hd
    rfl
  cases hw : bitAt w 0 <;> simp [divXor, hw, bitAt_xorWindow w d 0 h, hlead]

theorem polyOf_drop1 {w : Vec} (h : bitAt w 0 = false) : polyOf (drop1 w) = polyOf w := by
  cases w with
  | nil => rfl
  | cons b w =>
    obtain rfl : b = false := h
    exact (polyOf_false_cons w).symm

/-- One iteration of the long division keeps the dividend modulo the divisor (R106). -/
theorem polyOf_divStep_modByMonic {w d : Vec} (hd : d.head? = some true)
    (h : d.length ≤ w.length) :
    polyOf (drop1 (divXor w d)) %ₘ polyOf d = polyOf w %ₘ polyOf d := by
  rw [polyOf_drop1 (bitAt_divXor_zero hd h), divXor]
  split
  · rw [polyOf_xorWindow h, add_modByMonic, mul_self_modByMonic (monic_polyOf hd), add_zero]
  · rfl

theorem one_le_length_of_head? {d : Vec} (hd : d.head? = some true) : 1 ≤ d.length := by
  obtain ⟨v, rfl⟩ := List.head?_eq_some_iff.mp hd
  simp

/-- A vector shorter than the divisor is its own remainder. -/
theorem polyOf_modByMonic_of_length_lt {w d : Vec} (hd : d.head? = some true)
    (h : w.length < d.length) : polyOf w %ₘ polyOf d = polyOf w := by
  refine (modByMonic_eq_self_iff (monic_polyOf hd)).mpr ((degree_polyOf_lt w).trans_le ?_)
  rw [degree_polyOf hd]
  exact_mod_cast Nat.le_sub_one_of_lt h

/-- The long division computes the remainder of polynomials (R106). -/
theorem polyOf_remFixed (a : Vec) {d : Vec} (hd : d.head? = some true) :
    polyOf (remFixed a d) = polyOf a %ₘ polyOf d := by
  obtain ⟨-, hmod, hlt⟩ := divLoop_invariant d
    (fun _ w => polyOf w %ₘ polyOf d = polyOf a %ₘ polyOf d) (one_le_length_of_head? hd)
    (fun _ _ hw hle => (polyOf_divStep_modByMonic hd hle).trans hw) a.length 0 a le_rfl rfl
  rw [remFixed, polyOf_zeros_append, remRaw, ← hmod, polyOf_modByMonic_of_length_lt hd hlt]

/-- The remainder is zero exactly when the divisor divides (R106). -/
theorem remFixed_eq_zeros_iff_dvd (a : Vec) {d : Vec} (hd : d.head? = some true) :
    remFixed a d = zeros (d.length - 1) ↔ polyOf d ∣ polyOf a := by
  rw [← modByMonic_eq_zero_iff_dvd (monic_polyOf hd), ← polyOf_remFixed a hd,
    polyOf_eq_zero_iff, length_remFixed a d (one_le_length_of_head? hd)]

/-- A valid codeword is a 7-bit multiple of the generator. -/
theorem isCodeword_iff_dvd (v : Vec) :
    isCodeword v ↔ v.length = 7 ∧ polyOf Config.hardware.g ∣ polyOf v :=
  and_congr_right fun _ => remFixed_eq_zeros_iff_dvd v rfl

end

/-! ### The code is cyclic (00_scope.md R8 and glossary) -/

section
open Polynomial

theorem polyOf_hardware_g : polyOf Config.hardware.g = X ^ 3 + X + 1 := by
  simp [Config.hardware, polyOf_cons, add_assoc]

theorem polyOf_hardware_h : polyOf Config.hardware.h = X ^ 4 + X ^ 2 + X + 1 := by
  simp [Config.hardware, polyOf_cons, add_assoc]

/-- Settles O29, by multiplying out: every other power of x occurs twice. -/
theorem generatorTimesParityCheck : Obligations.GeneratorTimesParityCheck := by
  unfold Obligations.GeneratorTimesParityCheck
  rw [polyOf_hardware_g, polyOf_hardware_h]
  linear_combination (X ^ 5 + X ^ 4 + X ^ 3 + X ^ 2 + X) *
    CharTwo.two_eq_zero (R := (ZMod 2)[X])

/-- Rotation by one multiplies by x and reduces x^n to 1. -/
theorem polyOf_rotate_one (b : Bit) (v : Vec) :
    polyOf (v ++ [b]) = X * polyOf (b :: v) + if b then X ^ (v.length + 1) + 1 else 0 := by
  rw [polyOf_append, polyOf_cons b v, polyOf_cons b []]
  cases b
  · simp [mul_comm]
  · simp only [if_true, List.length_singleton, List.length_nil, polyOf_nil]
    linear_combination -X ^ (v.length + 1) * CharTwo.two_eq_zero (R := (ZMod 2)[X])

theorem isCodeword_rotate_one {v : Vec} (h : isCodeword v) : isCodeword (v.rotate 1) := by
  rw [isCodeword_iff_dvd] at h ⊢
  obtain ⟨hlen, hdvd⟩ := h
  refine ⟨by simpa using hlen, ?_⟩
  cases v with
  | nil => cases hlen
  | cons b v =>
    have hlen : v.length + 1 = 7 := hlen
    rw [List.rotate_cons_succ, List.rotate_zero, polyOf_rotate_one, hlen]
    refine dvd_add (hdvd.mul_left X) ?_
    cases b
    · exact dvd_zero _
    · exact ⟨_, generatorTimesParityCheck.symm⟩

/-- Settles O28, one rotation at a time. -/
theorem codewordsAreCyclic : Obligations.CodewordsAreCyclic := by
  intro v n hv
  induction n with
  | zero => simpa using hv
  | succ n ih => simpa [List.rotate_rotate] using isCodeword_rotate_one ih

end

/-! ### The LFSR as a polynomial remainder (45_decode_lfsr.md R161 to R164; 00_scope.md R9) -/

section
open Polynomial

/-- A step of the register is one iteration of the long division by the taps, of the register
shifted up with the incoming bit on its leading stage (R161, R163). -/
theorem lstep_eq_divStep {lt r : Vec} (b : Bit) (hlt : lt.length = 5) (hr : r.length = 4) :
    lstep lt r b =
      drop1 (divXor [b ^^ bitAt r 0, bitAt r 1, bitAt r 2, bitAt r 3, false] lt) := by
  match lt, r, hlt, hr with
  | [t0, t1, t2, t3, t4], [r0, r1, r2, r3], _, _ =>
    cases hfb : b ^^ r0 <;> simp [lstep, bitAt, divXor, drop1, xorWindow, hfb]

@[simp] theorem length_lstep (lt r : Vec) (b : Bit) : (lstep lt r b).length = 4 := rfl

/-- The register shifted up with the incoming bit on its leading stage: x·s(x) + b·x^4. -/
theorem polyOf_shiftIn {r : Vec} (b : Bit) (hr : r.length = 4) :
    polyOf [b ^^ bitAt r 0, bitAt r 1, bitAt r 2, bitAt r 3, false] =
      X * polyOf r + if b then X ^ 4 else 0 := by
  match r, hr with
  | [r0, r1, r2, r3], _ =>
    change polyOf ((b ^^ r0) :: ([r1, r2, r3] ++ [false])) = X * polyOf (r0 :: [r1, r2, r3]) + _
    rw [polyOf_cons, ite_xor_eq_add, polyOf_append, polyOf_cons r0, polyOf_false_cons, polyOf_nil,
      mul_add, mul_ite, mul_zero, ← pow_succ', List.length_singleton, pow_one]
    simp only [List.length_append, List.length_cons, List.length_nil]
    ring

/-- R163, one step: s(x) goes to x·s(x) + b·x^4 modulo LT(x). -/
theorem polyOf_lstep {lt r : Vec} (b : Bit) (hlt : lt.length = 5) (hd : lt.head? = some true)
    (hr : r.length = 4) :
    polyOf (lstep lt r b) = (X * polyOf r + if b then X ^ 4 else 0) %ₘ polyOf lt := by
  rw [← polyOf_modByMonic_of_length_lt hd (by simp [hlt]), lstep_eq_divStep b hlt hr,
    polyOf_divStep_modByMonic hd (by simp [hlt]), polyOf_shiftIn b hr]

/-- R163, any number of steps from any register. -/
theorem polyOf_foldl_lstep {lt : Vec} (hlt : lt.length = 5) (hd : lt.head? = some true)
    (v r : Vec) (hr : r.length = 4) :
    polyOf (v.foldl (lstep lt) r) =
      (X ^ v.length * polyOf r + X ^ 4 * polyOf v) %ₘ polyOf lt := by
  induction v generalizing r with
  | nil => simp [polyOf_modByMonic_of_length_lt hd (by omega : r.length < lt.length)]
  | cons b v ih =>
    rw [List.foldl_cons, ih _ (length_lstep lt r b), polyOf_lstep b hlt hd hr]
    refine modByMonic_eq_of_dvd_sub (monic_polyOf hd) ?_
    have hdvd := (dvd_modByMonic_sub (X * polyOf r + if b then X ^ 4 else 0)
      (polyOf lt)).mul_left (X ^ v.length)
    convert hdvd using 1
    rw [polyOf_cons, List.length_cons]
    cases b
    · simp only [Bool.false_eq_true, if_false]
      ring
    · simp only [if_true]
      ring

/-- R163: `lsyn(v)` is x^4·v(x) modulo LT(x). -/
theorem polyOf_lsyn {lt : Vec} (hlt : lt.length = 5) (hd : lt.head? = some true) (v : Vec) :
    polyOf (lsyn lt v) = (X ^ 4 * polyOf v) %ₘ polyOf lt := by
  have hzero : polyOf (zeros 4) = 0 := polyOf_eq_zero_iff.mpr (by simp)
  rw [lsyn, polyOf_foldl_lstep hlt hd v _ (length_zeros 4), hzero, mul_zero, zero_add]

theorem length_lsyn (lt v : Vec) : (lsyn lt v).length = 4 := by
  refine List.foldlRecOn v (lstep lt) (motive := fun r => r.length = 4) (length_zeros 4) ?_
  intros
  rfl

theorem lsyn_eq_zeros_iff_dvd {lt : Vec} (hlt : lt.length = 5) (hd : lt.head? = some true)
    (v : Vec) : lsyn lt v = zeros 4 ↔ polyOf lt ∣ X ^ 4 * polyOf v := by
  rw [← modByMonic_eq_zero_iff_dvd (monic_polyOf hd), ← polyOf_lsyn hlt hd, polyOf_eq_zero_iff,
    length_lsyn]

/-- LT is G followed by a zero, so LT(x) = x·G(x) (R163). -/
theorem polyOf_hardware_lt : polyOf Config.hardware.lt = X * polyOf Config.hardware.g := by
  have happend : Config.hardware.lt = Config.hardware.g ++ [false] := rfl
  rw [happend, polyOf_append, polyOf_false_cons, polyOf_nil, add_zero, List.length_singleton,
    pow_one, mul_comm]

/-- G(x) has constant term 1. -/
theorem isCoprime_hardware_g_X : IsCoprime (polyOf Config.hardware.g) X :=
  ⟨1, -(X ^ 2 + 1), by rw [polyOf_hardware_g]; ring⟩

/-- This hardware's register ends all-zero exactly on the multiples of G (R164). -/
theorem lsyn_hardware_eq_zeros_iff (v : Vec) :
    lsyn Config.hardware.lt v = zeros 4 ↔ polyOf Config.hardware.g ∣ polyOf v := by
  have hcancel : X ^ 4 * polyOf v = X * (X ^ 3 * polyOf v) := by ring
  rw [lsyn_eq_zeros_iff_dvd rfl rfl, polyOf_hardware_lt, hcancel, mul_dvd_mul_iff_left X_ne_zero]
  exact ⟨isCoprime_hardware_g_X.pow_right.dvd_of_dvd_mul_left, fun h => h.mul_left _⟩

/-- Two words single LT out: only the taps x^4 and x·G(x) end all-zero on the codeword 0001011, and
x^4 does so on 0000001 too, which is no codeword. -/
theorem eq_hardware_lt_of_two_words {lt : Vec} (hlt : lt.length = 5) (hd : lt.head? = some true)
    (hcode : lsyn lt (vec 0x0B 7) = zeros 4) (hunit : lsyn lt (unitVec 6) ≠ zeros 4) :
    lt = Config.hardware.lt := by
  match lt, hlt with
  | [t0, t1, t2, t3, t4], _ =>
    obtain rfl : t0 = true := by simpa using hd
    revert t1 t2 t3 t4
    decide

/-- Settles O44: the two words force the taps, and this hardware's taps are x·G(x). -/
theorem onlyTheseTapsGiveASyndrome : Obligations.OnlyTheseTapsGiveASyndrome := by
  intro lt hlt hd
  constructor
  · intro h
    have hcode : isCodeword (vec 0x0B 7) := ⟨by decide, by decide⟩
    have hunit : ¬ isCodeword (unitVec 6) := fun hc => absurd hc.2 (by decide)
    exact eq_hardware_lt_of_two_words hlt hd ((h _ (by decide)).mpr hcode)
      fun hz => hunit ((h _ (by decide)).mp hz)
  · rintro rfl v hv
    rw [isCodeword_iff_dvd, and_iff_right hv]
    exact lsyn_hardware_eq_zeros_iff v

end

end Sys2Proof.Machine

/-! ## What a command does: one refusal or one effect (10_state.md R39; 60_exceptions.md R200) -/

namespace Sys2Proof.Machine

/-- The error a load raises, if any (R92). -/
def loadRaised (len bits : Nat) : Option ErrorKind :=
  match loadCheck len bits with
  | .error e => some e
  | .ok _ => none

/-- The error the divisor check raises, if any (R109). -/
def divisorRaised (d : Vec) : Option ErrorKind :=
  if divisorOk d then none else some .invalidDivisor

/-- The error a command raises on this hardware, if any. INIT's construction fault is not among them:
the construction succeeds (R139). -/
def raised : Instr → State → Option ErrorKind
  | .lda len bits, _ => loadRaised len.toNat bits.toNat
  | .ldb len bits, _ => loadRaised len.toNat bits.toNat
  | .remF _, s => divisorRaised s.b
  | .remT _, s => divisorRaised s.b
  | .enc _, s => codecCheck 4 s
  | .decD _, s => codecCheck 7 s
  | .decL _, s => codecCheck 7 s
  | .init, s => initCheck s

/-- What a command that completes does on this hardware, less its last line `ERR <- 0`. -/
def effect : Instr → State → State
  | .lda len bits, s => writeA (vec bits.toNat len.toNat) s
  | .ldb len bits, s => writeB (vec bits.toNat len.toNat) s
  | .remF tr, s => writeQ (remFixed s.a s.b) (emit tr (remTrace s.a s.b) s)
  | .remT tr, s => writeQ (remTrim s.a s.b) (emit tr (remTrace s.a s.b) s)
  | .enc tr, s =>
    writeQ (encodeWord Config.hardware.g s.a)
      (emit tr (remTrace (shifted s.a) Config.hardware.g) s)
  | .decD tr, s =>
    writeDecoded (decodeDirect Config.hardware.g s.tab s.a)
      (emit tr (remTrace s.a Config.hardware.g) s)
  | .decL _, s => writeDecoded (decodeLfsr Config.hardware.lt s.lref s.a) s
  | .init, s => markReady 6 (copyTable (buildTable Config.hardware.g) s)

theorem loadWith_eq (write : Vec → State → State) (len : BitVec 5) (bits : BitVec 16) (s : State) :
    loadWith write len bits s =
      (loadRaised len.toNat bits.toNat).elim
        (complete (write (vec bits.toNat len.toNat) s)) (raise · s) := by
  unfold loadWith loadRaised
  cases h : loadCheck len.toNat bits.toNat with
  | error e => rfl
  | ok v => rw [(vec_domain_of_loadCheck h).2]; rfl

/-- A refusal or a completion, said as one equation. -/
theorem eq_elim_of_cases {error : Option ErrorKind} {r done s : State}
    (h : (∃ e, error = some e ∧ r = raise e s) ∨ (error = none ∧ r = done)) :
    r = error.elim done (raise · s) := by
  obtain ⟨e, rfl, rfl⟩ | ⟨rfl, rfl⟩ := h <;> rfl

theorem remWith_eq (mode : Vec → Vec → Vec) (tr : Bool) (s : State) :
    remWith mode tr s =
      (divisorRaised s.b).elim
        (complete (writeQ (mode s.a s.b) (emit tr (remTrace s.a s.b) s))) (raise · s) := by
  unfold remWith divisorRaised
  split <;> rfl

theorem initStep_hardware_eq (s : State) :
    initStep Config.hardware s =
      (initCheck s).elim
        (complete (markReady 6 (copyTable (buildTable Config.hardware.g) s))) (raise · s) := by
  unfold initStep
  cases initCheck s with
  | some e => rfl
  | none => rw [if_pos tableOk_hardware, reference_hardware]; rfl

/-- Every command refuses with its error or has its effect and sets ERR to 0. -/
theorem exec_eq (i : Instr) (s : State) :
    exec i s = .next ((raised i s).elim (complete (effect i s)) (raise · s)) := by
  cases i with
  | lda len bits => exact congrArg _ (loadWith_eq writeA len bits s)
  | ldb len bits => exact congrArg _ (loadWith_eq writeB len bits s)
  | remF tr => exact congrArg _ (remWith_eq remFixed tr s)
  | remT tr => exact congrArg _ (remWith_eq remTrim tr s)
  | enc tr => exact congrArg _ (eq_elim_of_cases (encStep_cases Config.hardware tr s))
  | decD tr => exact congrArg _ (eq_elim_of_cases (decDStep_cases Config.hardware tr s))
  | decL tr => exact congrArg _ (eq_elim_of_cases (decLStep_cases Config.hardware tr s))
  | init => exact congrArg _ (initStep_hardware_eq s)

/-- Everything a command can do. -/
theorem exec_cases {i : Instr} {s t : State} (h : exec i s = .next t) :
    (∃ e, raised i s = some e ∧ t = raise e s) ∨
    (raised i s = none ∧ t = complete (effect i s)) := by
  rw [exec_eq] at h
  injection h with h
  subst h
  cases hr : raised i s with
  | some e => exact .inl ⟨e, rfl, rfl⟩
  | none => exact .inr ⟨rfl, rfl⟩

/-- Everything a step can do: wait, refuse a word, run a command to its end, or reset. -/
theorem step_effect_cases {s t : State} (h : step s = .next t) :
    (s.host = [] ∧ t = s) ∨
    (∃ cw rest e, s.host = .issue cw :: rest ∧ t = raise e { s with host := rest }) ∨
    (∃ cw rest i, s.host = .issue cw :: rest ∧ raised i { s with host := rest } = none ∧
      t = complete (effect i { s with host := rest })) ∨
    (∃ rest, s.host = .reset :: rest ∧ t = assertReset { s with host := rest }) := by
  obtain hidle | ⟨cw, rest, hhost, haccept⟩ | hreset := step_cases h
  · exact .inl hidle
  · obtain ⟨i, -, hexec⟩ | ⟨-, rfl⟩ := acceptWord_cases haccept
    · obtain ⟨e, -, rfl⟩ | ⟨hnone, rfl⟩ := exec_cases hexec
      · exact .inr (.inl ⟨cw, rest, e, hhost, rfl⟩)
      · exact .inr (.inr (.inl ⟨cw, rest, i, hhost, hnone, rfl⟩))
    · exact .inr (.inl ⟨cw, rest, .illegalCommand, hhost, rfl⟩)
  · exact .inr (.inr (.inr hreset))

/-! ### When a command's tests pass -/

theorem length_le_of_loadRaised {len bits : Nat} (h : loadRaised len bits = none) : len ≤ 16 := by
  by_contra hlen
  simp [loadRaised, loadCheck, Config.vlenMax, Nat.not_le.mp hlen] at h

theorem divisorRaised_eq_none_iff {d : Vec} : divisorRaised d = none ↔ d.head? = some true := by
  simp [divisorRaised, divisorOk_iff]

theorem codecCheck_eq_none_iff {need : Nat} {s : State} :
    codecCheck need s = none ↔ s.fatal = false ∧ s.ready = true ∧ s.a.length = need := by
  cases hf : s.fatal <;> cases hr : s.ready <;> simp [codecCheck, hf, hr]

theorem initCheck_eq_none_iff {s : State} :
    initCheck s = none ↔ s.fatal = false ∧ s.ready = false := by
  cases hf : s.fatal <;> cases hr : s.ready <;> simp [initCheck, hf, hr]

/-! ### What each effect leaves unchanged (R39) -/

theorem errCode_ne_zero (e : ErrorKind) : errCode e ≠ 0 := by
  cases e <;> decide

/-- The records a command that completes emits (R113). -/
def emitted : Instr → State → List StepRecord
  | .remF tr, s => if tr then remTrace s.a s.b else []
  | .remT tr, s => if tr then remTrace s.a s.b else []
  | .enc tr, s => if tr then remTrace (shifted s.a) Config.hardware.g else []
  | .decD tr, s => if tr then remTrace s.a Config.hardware.g else []
  | _, _ => []

theorem effect_trace (i : Instr) (s : State) :
    (effect i s).trace = s.trace ++ emitted i s := by
  cases i <;> simp [effect, emitted]

@[simp] theorem effect_fatal (i : Instr) (s : State) : (effect i s).fatal = s.fatal := by
  cases i <;> simp [effect]

@[simp] theorem effect_host (i : Instr) (s : State) : (effect i s).host = s.host := by
  cases i <;> simp [effect]

theorem effect_a {i : Instr} (h : ∀ len bits, i ≠ .lda len bits) (s : State) :
    (effect i s).a = s.a := by
  cases i with
  | lda len bits => exact absurd rfl (h len bits)
  | _ => simp [effect]

theorem effect_b {i : Instr} (h : ∀ len bits, i ≠ .ldb len bits) (s : State) :
    (effect i s).b = s.b := by
  cases i with
  | ldb len bits => exact absurd rfl (h len bits)
  | _ => simp [effect]

theorem effect_q {i : Instr}
    (h : (∃ len bits, i = .lda len bits ∨ i = .ldb len bits) ∨ i = .init) (s : State) :
    (effect i s).q = s.q := by
  obtain ⟨len, bits, rfl | rfl⟩ | rfl := h <;> simp [effect]

theorem effect_decodeFields {i : Instr} (h : ∀ tr, i ≠ .decD tr ∧ i ≠ .decL tr) (s : State) :
    (effect i s).outcome = s.outcome ∧ (effect i s).pos = s.pos ∧ (effect i s).syn = s.syn := by
  cases i with
  | decD tr => exact absurd rfl (h tr).1
  | decL tr => exact absurd rfl (h tr).2
  | _ => simp [effect]

theorem effect_construction {i : Instr} (h : i ≠ .init) (s : State) :
    (effect i s).tab = s.tab ∧ (effect i s).lref = s.lref ∧ (effect i s).ready = s.ready := by
  cases i with
  | init => exact absurd rfl h
  | _ => simp [effect]

/-- INIT under any constants writes its row of R39. -/
theorem initStep_frame (c : Config) (s : State) :
    initStep c s =
      { s with
        tab := (initStep c s).tab, lref := (initStep c s).lref, ready := (initStep c s).ready,
        fatal := (initStep c s).fatal, err := (initStep c s).err } := by
  obtain ⟨e, -, h⟩ | ⟨-, -, h⟩ | ⟨-, -, h⟩ := initStep_cases c s <;> rw [h]
  · rfl
  · simp only [raise, markFatal, eraseTable]
  · simp only [complete, markReady, copyTable]

theorem acceptWord_of_illegal {cw : CommandWord} (h : decode cw = .error .illegalCommand)
    (s : State) : acceptWord cw s = .next { s with err := 7 } := by
  simp [acceptWord, h, raise, errCode]

/-- Settles O49: a refusal writes ERR alone, and each effect leaves what is outside its row. -/
theorem commandsWriteOnlyTheirRow : Obligations.CommandsWriteOnlyTheirRow := by
  refine ⟨fun i s t h => ?_, fun cw s h => acceptWord_of_illegal h s, initStep_frame⟩
  obtain ⟨e, -, rfl⟩ | ⟨-, rfl⟩ := exec_cases h
  · simp only [raise_a, raise_b, raise_q, raise_outcome, raise_pos, raise_syn, raise_tab,
      raise_lref, raise_ready, raise_fatal, raise_host, implies_true, and_self, true_and]
    exact fun _ => rfl
  · exact ⟨(effect_a · s), (effect_b · s), (effect_q · s), (effect_decodeFields · s),
      (effect_construction · s), effect_fatal i s, effect_host i s,
      fun herr => absurd rfl herr⟩

/-! ### The construction happens once (R30, R35) -/

/-- Settles O51: a refusal leaves the construction, and INIT refuses while READY = 1. -/
theorem builtTableIsImmutable : Obligations.BuiltTableIsImmutable := by
  intro s t hready hreset hstep
  obtain ⟨-, rfl⟩ | ⟨cw, rest, e, -, rfl⟩ | ⟨cw, rest, i, -, hnone, rfl⟩ | ⟨rest, hhost, -⟩ :=
    step_effect_cases hstep
  · exact ⟨hready, rfl, rfl⟩
  · exact ⟨hready, rfl, rfl⟩
  · have hinit : i ≠ .init := by
      rintro rfl
      exact Bool.false_ne_true ((initCheck_eq_none_iff.mp hnone).2.symm.trans hready)
    obtain ⟨htab, hlref, hready'⟩ := effect_construction hinit { s with host := rest }
    exact ⟨hready'.trans hready, htab, hlref⟩
  · exact absurd (by rw [hhost]; rfl) hreset

/-! ### What no command reads (R22, R23, R28, R37, R193) -/

/-- Two states agree on everything a command reads (R193). -/
structure State.SameOperands (s s' : State) : Prop where
  a : s.a = s'.a
  b : s.b = s'.b
  ready : s.ready = s'.ready
  fatal : s.fatal = s'.fatal
  tab : s.tab = s'.tab
  lref : s.lref = s'.lref

section
variable {s s' : State} (h : s.SameOperands s')
include h

theorem State.SameOperands.codecCheck_eq (need : Nat) : codecCheck need s = codecCheck need s' := by
  unfold codecCheck
  rw [h.fatal, h.ready, h.a]

theorem State.SameOperands.raised_eq (i : Instr) : raised i s = raised i s' := by
  cases i with
  | lda len bits => rfl
  | ldb len bits => rfl
  | remF tr => exact congrArg divisorRaised h.b
  | remT tr => exact congrArg divisorRaised h.b
  | enc tr => exact h.codecCheck_eq 4
  | decD tr => exact h.codecCheck_eq 7
  | decL tr => exact h.codecCheck_eq 7
  | init =>
    change initCheck s = initCheck s'
    rw [initCheck, initCheck, h.fatal, h.ready]

theorem State.SameOperands.emitted_eq (i : Instr) : emitted i s = emitted i s' := by
  cases i <;> simp only [emitted, h.a, h.b]

theorem State.SameOperands.complete_effect (i : Instr) :
    (complete (effect i s)).SameOperands (complete (effect i s')) := by
  obtain ⟨ha, hb, hready, hfatal, htab, hlref⟩ := h
  cases i with
  | lda len bits => exact ⟨rfl, hb, hready, hfatal, htab, hlref⟩
  | ldb len bits => exact ⟨ha, rfl, hready, hfatal, htab, hlref⟩
  | _ => constructor <;> simp [effect, *]

end

/-- Settles O52: states with the same operands refuse alike, and every effect is a function of
them. -/
theorem resultRegistersAreNeverRead : Obligations.ResultRegistersAreNeverRead := by
  intro i s s' t t' ha hb hready hfatal htab hlref ht ht'
  have h : s.SameOperands s' := ⟨ha, hb, hready, hfatal, htab, hlref⟩
  rw [exec_eq] at ht ht'
  rw [← h.raised_eq i] at ht'
  injection ht with ht
  injection ht' with ht'
  subst ht ht'
  cases raised i s with
  | some e =>
    exact ⟨ha, hb, hready, hfatal, htab, hlref, rfl, ⟨[], by simp⟩,
      fun herr => absurd herr (errCode_ne_zero e), fun herr => absurd herr (errCode_ne_zero e)⟩
  | none =>
    obtain ⟨ha', hb', hready', hfatal', htab', hlref'⟩ := h.complete_effect i
    refine ⟨ha', hb', hready', hfatal', htab', hlref', rfl,
      ⟨emitted i s, effect_trace i s, (effect_trace i s').trans (by rw [h.emitted_eq])⟩, ?_, ?_⟩
    · rintro - ⟨tr, rfl | rfl | rfl⟩ <;> simp [effect, ha, hb]
    · rintro - ⟨tr, rfl | rfl⟩ <;> simp [effect, ha, htab, hlref]

/-- B plays no part in the tests of a command other than REM. -/
theorem raised_writeB {i : Instr} (h : ∀ tr, i ≠ .remF tr ∧ i ≠ .remT tr) (v : Vec) (s : State) :
    raised i (writeB v s) = raised i s := by
  cases i with
  | remF tr => exact absurd rfl (h tr).1
  | remT tr => exact absurd rfl (h tr).2
  | _ => rfl

/-- The effect of a command that neither reads nor writes B commutes with a write of B (R22). -/
theorem effect_writeB {i : Instr}
    (h : i = .init ∨ (∃ tr, i = .enc tr ∨ i = .decD tr ∨ i = .decL tr) ∨
      ∃ len bits, i = .lda len bits) (v : Vec) (s : State) :
    effect i (writeB v s) = writeB v (effect i s) := by
  obtain rfl | ⟨tr, rfl | rfl | rfl⟩ | ⟨len, bits, rfl⟩ := h
  · simp only [effect, markReady, copyTable, writeB]
  all_goals rfl

theorem exec_writeB {i : Instr} (h : ∀ tr, i ≠ .remF tr ∧ i ≠ .remT tr) (v : Vec) (s : State) :
    exec i (writeB v s) =
      .next ((raised i s).elim (complete (effect i (writeB v s))) (raise · (writeB v s))) := by
  rw [exec_eq, raised_writeB h]

/-- Settles O53: B plays no part in the tests, and a write of B commutes with every effect but
LDB's, which overwrites it. -/
theorem onlyRemReadsB : Obligations.OnlyRemReadsB := by
  intro i s t v h
  constructor
  · intro hi
    have hrem : ∀ tr, i ≠ .remF tr ∧ i ≠ .remT tr := by
      intro tr
      constructor <;> rintro rfl <;> simp at hi
    change exec i (writeB v s) = .next (writeB v t)
    rw [exec_writeB hrem, effect_writeB hi]
    obtain ⟨e, he, rfl⟩ | ⟨hnone, rfl⟩ := exec_cases h
    · rw [he]
      rfl
    · rw [hnone]
      rfl
  · rintro ⟨len, bits, rfl⟩
    change exec (.ldb len bits) (writeB v s) = _
    rw [exec_writeB (by simp)]
    obtain ⟨e, he, rfl⟩ | ⟨hnone, rfl⟩ := exec_cases h
    · rw [he, raise_err, if_neg (errCode_ne_zero e)]
      rfl
    · rw [hnone]
      rfl

/-! ### STATUS and the bus, bit by bit (R24, R32) -/

theorem getLsbD_append_add {m n : Nat} (x : BitVec m) (y : BitVec n) (i : Nat) :
    (x ++ y).getLsbD (n + i) = x.getLsbD i := by
  simp [BitVec.getLsbD_append]

theorem getLsbD_append_ofBool {m : Nat} (x : BitVec m) (b : Bool) :
    (x ++ BitVec.ofBool b).getLsbD 0 = b := by
  rw [BitVec.getLsbD_append, if_pos one_pos, BitVec.getLsbD_ofBool]
  simp

/-- A field above the low part of a concatenation is a field of the high part. -/
theorem extractLsb'_append_add {m n : Nat} (x : BitVec m) (y : BitVec n) (start len : Nat) :
    (x ++ y).extractLsb' (n + start) len = x.extractLsb' start len := by
  refine BitVec.eq_of_getLsbD_eq fun i _ => ?_
  rw [BitVec.getLsbD_extractLsb', BitVec.getLsbD_extractLsb', Nat.add_assoc, getLsbD_append_add]

/-- Element i of a vector is bit `len - 1 - i` of its number (R14, R24). -/
theorem testBit_uint (v : Vec) {i : Nat} (h : i < v.length) :
    (uint v).testBit (v.length - 1 - i) = bitAt v i := by
  induction v generalizing i with
  | nil => simp at h
  | cons b v ih =>
    rw [uint, mul_comm, Nat.testBit_two_pow_mul_add _ (uint_lt_two_pow v)]
    cases i with
    | zero => cases b <;> simp [bitAt]
    | succ i =>
      have hi : i < v.length := by simpa using h
      have hindex : (b :: v).length - 1 - (i + 1) = v.length - 1 - i := by
        simp only [List.length_cons]
        omega
      rw [hindex, if_pos (by omega), ih hi]
      rfl

theorem getLsbD_vecBus (v : Vec) {j : Nat} (h : j < 16) :
    (vecBus v).getLsbD j = (uint v).testBit j :=
  BitVec.getLsbD_append.trans (by rw [if_pos h, BitVec.getLsbD_ofNat, decide_eq_true h,
    Bool.true_and])

/-- Settles O12, from the bits of the vector's number. -/
theorem vectorBusIsRightAligned : Obligations.VectorBusIsRightAligned := by
  intro v hv
  have hnum : uint v < 2 ^ 16 :=
    (uint_lt_two_pow v).trans_le (Nat.pow_le_pow_right two_pos hv)
  refine ⟨?_, ?_, fun i hi => ?_, fun j hle hj => ?_⟩
  · rw [vecBus, BitVec.extractLsb'_append_eq_left, BitVec.toNat_ofNat, Nat.mod_eq_of_lt (by omega)]
  · rw [vecBus, BitVec.extractLsb'_append_eq_right, BitVec.toNat_ofNat, Nat.mod_eq_of_lt hnum]
  · rw [getLsbD_vecBus v (by omega), testBit_uint v hi]
  · rw [getLsbD_vecBus v hj]
    exact Nat.testBit_lt_two_pow
      ((uint_lt_two_pow v).trans_le (Nat.pow_le_pow_right two_pos hle))

/-- Settles O13, one field of the concatenation after the other. -/
theorem statusFieldPlaces : Obligations.StatusFieldPlaces := by
  intro s
  unfold status
  refine ⟨BitVec.extractLsb'_append_eq_right, ?ready, ?fatal, ?outcome, ?pos, ?syn, ?reserved⟩
  case ready => exact (getLsbD_append_add _ s.err 0).trans (getLsbD_append_ofBool _ _)
  case fatal =>
    exact (getLsbD_append_add _ s.err 1).trans <| (getLsbD_append_add _ _ 0).trans <|
      getLsbD_append_ofBool _ _
  case outcome =>
    refine (extractLsb'_append_add _ s.err 2 2).trans <| (extractLsb'_append_add _ _ 1 2).trans <|
      (extractLsb'_append_add _ _ 0 2).trans <| BitVec.extractLsb'_append_eq_right.trans ?_
    cases s.outcome <;> rfl
  case pos =>
    exact (extractLsb'_append_add _ s.err 4 3).trans <| (extractLsb'_append_add _ _ 3 3).trans <|
      (extractLsb'_append_add _ _ 2 3).trans <| (extractLsb'_append_add _ _ 0 3).trans
      BitVec.extractLsb'_append_eq_right
  case syn =>
    exact (extractLsb'_append_add _ s.err 7 4).trans <| (extractLsb'_append_add _ _ 6 4).trans <|
      (extractLsb'_append_add _ _ 5 4).trans <| (extractLsb'_append_add _ _ 3 4).trans <|
      (extractLsb'_append_add _ _ 0 4).trans BitVec.extractLsb'_append_eq_right
  case reserved =>
    exact (getLsbD_append_add _ s.err 11).trans <| (getLsbD_append_add _ _ 10).trans <|
      (getLsbD_append_add _ _ 9).trans <| (getLsbD_append_add _ _ 7).trans <|
      (getLsbD_append_add _ _ 4).trans <| (getLsbD_append_add _ _ 0).trans rfl

/-- Settles O10, R38's column read off the reset state. -/
theorem resetStateValues : Obligations.ResetStateValues :=
  ⟨rfl, rfl, rfl, rfl, rfl, rfl, rfl, rfl, rfl, memRead_nil, rfl, by decide⟩

end Sys2Proof.Machine

/-! ## The invariant (State.Coherent) -/

namespace Sys2Proof.Machine

/-! ### What a completed command writes is within the invariant -/

/-- Every record of a division of a register's dividend is a step record (R110). -/
theorem remTrace_wf {a d : Vec} (ha : a.length ≤ 16) (hd : d.head? = some true) :
    ∀ r ∈ remTrace a d, r.wf := by
  refine divLoop_records d (fun i w => i + w.length ≤ 16) StepRecord.wf
    (one_le_length_of_head? hd) (fun i w hfits hle => ?_) a.length 0 a (by omega)
  have hpos : 1 ≤ w.length := (one_le_length_of_head? hd).trans hle
  exact ⟨by simp only [length_drop1, length_divXor]; omega,
    hpos, hfits, length_divXor w d, rfl, bitAt_divXor_zero hd hle⟩

theorem length_remTrim_le (a d : Vec) (hd : 1 ≤ d.length) :
    (remTrim a d).length ≤ d.length - 1 :=
  (List.dropWhile_suffix _).length_le.trans (by rw [length_remRaw a d hd]; exact min_le_right _ _)

theorem length_shifted (data : Vec) : (shifted data).length = data.length + 3 := by
  rw [shifted, List.length_append, length_zeros]
  rfl

theorem length_encodeWord (g data : Vec) : (encodeWord g data).length = data.length + 3 := by
  rw [encodeWord, List.length_append, length_xorWindow, ← List.length_append,
    List.take_append_drop, length_shifted]

/-- A decode's outcome, position and syndrome agree (R26 to R28). -/
def Decoded.Agrees (d : Decoded) : Prop :=
  statusFieldsAgree (verdictState d.verdict) (verdictPos d.verdict) d.syndrome

theorem tableImage_of_ne_zero : ∀ k : BitVec 3, k ≠ 0 →
    (tableImage k).v = true ∧ (tableImage k).pos ≠ 7 := by decide

theorem setWidth_four_ne_zero : ∀ k : BitVec 3, k ≠ 0 → k.setWidth 4 ≠ 0 := by decide

/-- With the table of R133 every nonzero syndrome has a position (R149). -/
theorem decodeDirect_agrees {tab : Memory} (htab : ∀ k, memRead tab k = tableImage k) (w : Vec) :
    (decodeDirect Config.hardware.g tab w).Agrees := by
  obtain ⟨-, hd⟩ | ⟨hne, -, hd⟩ | ⟨hne, hv, -⟩ := decodeDirect_cases Config.hardware.g tab w
  · rw [hd]
    exact ⟨rfl, rfl⟩
  · rw [hd, htab]
    exact ⟨(tableImage_of_ne_zero _ hne).2, setWidth_four_ne_zero _ hne⟩
  · rw [htab, (tableImage_of_ne_zero _ hne).1] at hv
    cases hv

theorem length_decodeDirect (g : Vec) (tab : Memory) (w : Vec) :
    (decodeDirect g tab w).word.length = w.length := by
  obtain ⟨-, hd⟩ | ⟨-, -, hd⟩ | ⟨-, -, hd⟩ := decodeDirect_cases g tab w <;> simp [hd]

/-- The last stage of this hardware's register is always 0 (R164). -/
theorem bitAt_lsyn_hardware (w : Vec) : bitAt (lsyn Config.hardware.lt w) 3 = false := by
  refine List.foldlRecOn w (lstep Config.hardware.lt) (motive := fun r => bitAt r 3 = false) rfl ?_
  intro r _ b _
  exact Bool.and_false _

/-- From the reference 6 the search finds every nonzero register state whose last stage is 0
(R172). -/
theorem locate_hardware_ne_none {r : Vec} (hlen : r.length = 4) (hlast : bitAt r 3 = false)
    (hne : r ≠ zeros 4) : locate Config.hardware.lt 6 r ≠ none := by
  match r, hlen with
  | [r0, r1, r2, r3], _ =>
    obtain rfl : r3 = false := hlast
    revert r0 r1 r2
    decide

theorem ofNat_uint_eq_zero_iff {r : Vec} (hlen : r.length = 4) :
    BitVec.ofNat 4 (uint r) = 0 ↔ r = zeros 4 := by
  match r, hlen with
  | [r0, r1, r2, r3], _ =>
    revert r0 r1 r2 r3
    decide

theorem ofNat_six_sub_ne_seven (i : Nat) : BitVec.ofNat 3 (6 - i) ≠ 7 := by
  intro h
  have hnum : (6 - i) % 2 ^ 3 = 7 := congrArg BitVec.toNat h
  omega

/-- From the reference 6 every nonzero LFSR syndrome is located (R172). -/
theorem decodeLfsr_agrees (w : Vec) : (decodeLfsr Config.hardware.lt 6 w).Agrees := by
  have hlen := length_lsyn Config.hardware.lt w
  obtain ⟨hz, hd⟩ | ⟨i, hne, -, hd⟩ | ⟨hne, hl, -⟩ := decodeLfsr_cases Config.hardware.lt 6 w
  · rw [hd]
    exact ⟨rfl, (ofNat_uint_eq_zero_iff hlen).mpr hz⟩
  · rw [hd]
    exact ⟨ofNat_six_sub_ne_seven i, fun hz => hne ((ofNat_uint_eq_zero_iff hlen).mp hz)⟩
  · exact absurd hl (locate_hardware_ne_none hlen (bitAt_lsyn_hardware w) hne)

theorem length_decodeLfsr (lt : Vec) (lref : BitVec 4) (w : Vec) :
    (decodeLfsr lt lref w).word.length = w.length := by
  obtain ⟨-, hd⟩ | ⟨i, -, -, hd⟩ | ⟨-, -, hd⟩ := decodeLfsr_cases lt lref w <;> simp [hd]

/-- The builder's table for this hardware is that of R133. -/
theorem memRead_buildTable_hardware :
    ∀ k, memRead (buildTable Config.hardware.g) k = tableImage k := by decide

theorem errCode_le_seven (e : ErrorKind) : (errCode e).toNat ≤ 7 := by
  cases e <;> decide

/-! ### Each operation keeps the invariant -/

/-- Settles O54, field by field. -/
theorem resetIsCoherent : Obligations.ResetIsCoherent where
  aFits := by decide
  bFits := by decide
  qFits := by decide
  errAssigned := by decide
  notBoth := by decide
  tabCanonical := reset_tab_wf
  built := by decide
  unbuilt := fun _ => ⟨rfl, rfl⟩
  decodedOnlyReady := fun h => absurd rfl h
  fieldsAgree := ⟨rfl, rfl⟩
  traceRecords := fun _ h => absurd h List.not_mem_nil

namespace State.Coherent
variable {s : State} (h : s.Coherent)
include h

theorem withHost (actions : List HostAction) : ({ s with host := actions } : State).Coherent :=
  { h with }

theorem raise (e : ErrorKind) : (raise e s).Coherent :=
  { h with errAssigned := errCode_le_seven e }

theorem complete : (complete s).Coherent :=
  { h with errAssigned := Nat.zero_le 7 }

theorem assertReset : (assertReset s).Coherent :=
  { resetIsCoherent with traceRecords := h.traceRecords }

theorem writeA {v : Vec} (hv : v.length ≤ 16) : (writeA v s).Coherent :=
  { h with aFits := hv }

theorem writeB {v : Vec} (hv : v.length ≤ 16) : (writeB v s).Coherent :=
  { h with bFits := hv }

theorem writeQ {v : Vec} (hv : v.length < 16) : (writeQ v s).Coherent :=
  { h with qFits := hv }

theorem emit (tr : Bool) {recs : List StepRecord} (hrecs : ∀ r ∈ recs, r.wf) :
    (emit tr recs s).Coherent where
  __ := h
  traceRecords := by
    intro r hr
    rw [emit_trace, List.mem_append] at hr
    obtain hr | hr := hr
    · exact h.traceRecords r hr
    · cases tr
      · cases hr
      · exact hrecs r hr

theorem writeDecoded {d : Decoded} (hready : s.ready = true) (hword : d.word.length < 16)
    (hd : d.Agrees) : (writeDecoded d s).Coherent :=
  { h with qFits := hword, decodedOnlyReady := fun _ => hready, fieldsAgree := hd }

theorem construct {table : Memory} (htable : ∀ k, memRead table k = tableImage k)
    (hfatal : s.fatal = false) : (markReady 6 (copyTable table s)).Coherent where
  __ := h
  notBoth := fun hboth => Bool.false_ne_true (hfatal.symm.trans hboth.2)
  tabCanonical := fillTable_wf _ _ h.tabCanonical
  built := fun _ => ⟨fun k => (memRead_fillTable _ _ k).trans (htable k), rfl⟩
  unbuilt := fun hready => absurd hready.symm Bool.false_ne_true
  decodedOnlyReady := fun _ => rfl

end State.Coherent

/-- Every command that completes keeps the invariant. -/
theorem State.Coherent.effect {s : State} (h : s.Coherent) {i : Instr} (hnone : raised i s = none) :
    (effect i s).Coherent := by
  cases i with
  | lda len bits => exact h.writeA ((length_vec _ _).trans_le (length_le_of_loadRaised hnone))
  | ldb len bits => exact h.writeB ((length_vec _ _).trans_le (length_le_of_loadRaised hnone))
  | remF tr =>
    have hd := divisorRaised_eq_none_iff.mp hnone
    have hpos := one_le_length_of_head? hd
    exact (h.emit tr (remTrace_wf h.aFits hd)).writeQ
      ((length_remFixed _ _ hpos).trans_lt ((Nat.sub_lt hpos one_pos).trans_le h.bFits))
  | remT tr =>
    have hd := divisorRaised_eq_none_iff.mp hnone
    have hpos := one_le_length_of_head? hd
    exact (h.emit tr (remTrace_wf h.aFits hd)).writeQ
      ((length_remTrim_le _ _ hpos).trans_lt ((Nat.sub_lt hpos one_pos).trans_le h.bFits))
  | enc tr =>
    obtain ⟨-, -, hlen⟩ := codecCheck_eq_none_iff.mp hnone
    refine (h.emit tr (remTrace_wf ?_ rfl)).writeQ ?_
    · rw [length_shifted, hlen]
      decide
    · rw [length_encodeWord, hlen]
      decide
  | decD tr =>
    obtain ⟨-, hready, hlen⟩ := codecCheck_eq_none_iff.mp hnone
    refine (h.emit tr (remTrace_wf h.aFits rfl)).writeDecoded hready ?_
      (decodeDirect_agrees (h.built hready).1 _)
    rw [length_decodeDirect, hlen]
    decide
  | decL tr =>
    obtain ⟨-, hready, hlen⟩ := codecCheck_eq_none_iff.mp hnone
    refine h.writeDecoded hready ?_ ?_
    · rw [length_decodeLfsr, hlen]
      decide
    · rw [(h.built hready).2]
      exact decodeLfsr_agrees _
  | init => exact h.construct memRead_buildTable_hardware (initCheck_eq_none_iff.mp hnone).1

/-- Settles O55: of the four things a step can do, each keeps the invariant. -/
theorem stepKeepsCoherence : Obligations.StepKeepsCoherence := by
  intro s t h hstep
  obtain ⟨-, rfl⟩ | ⟨cw, rest, e, -, rfl⟩ | ⟨cw, rest, i, -, hnone, rfl⟩ | ⟨rest, -, rfl⟩ :=
    step_effect_cases hstep
  · exact h
  · exact (h.withHost rest).raise e
  · exact ((h.withHost rest).effect hnone).complete
  · exact (h.withHost rest).assertReset

end Sys2Proof.Machine

/-! ## The table as DEC.D reads it (20_memory.md R50; 44_decode_direct.md R146) -/

namespace Sys2Proof.Machine

/-- A zero syndrome ends the decode before the table is read; any other reads its own entry only. -/
theorem decodeDirect_congr_tab {g w : Vec} {tab m : Memory}
    (h : dsyn g w = 0 ∨ memRead m (dsyn g w) = memRead tab (dsyn g w)) :
    decodeDirect g m w = decodeDirect g tab w := by
  obtain hzero | hentry := h
  · simp only [decodeDirect, if_pos hzero]
  · simp only [decodeDirect, hentry]

/-- Settles O35: the tests do not read the table, and the decode reads one entry of it at most. -/
theorem decDReadsOneEntry : Obligations.DecDReadsOneEntry := by
  intro tr s t m hentry hexec
  have hraised : raised (.decD tr) { s with tab := m } = raised (.decD tr) s := rfl
  have heffect : effect (.decD tr) { s with tab := m } = { effect (.decD tr) s with tab := m } := by
    simp only [effect, decodeDirect_congr_tab hentry]
    rfl
  rw [exec_eq, hraised, heffect]
  obtain ⟨e, he, rfl⟩ | ⟨hnone, rfl⟩ := exec_cases hexec
  · rw [he]
    rfl
  · rw [hnone]
    rfl

end Sys2Proof.Machine

/-! ## The decoder and the encoder (30_encoding.md R70 to R79) -/

/-- Every command's word lies in the rows of the command's mnemonic. -/
theorem Sys2Proof.Laws.EncodingInRow.statement : ∀ i : Sys2Proof.Instr, Statement i
  | .lda len bits => lda len bits
  | .ldb len bits => ldb len bits
  | .remF tr => remF tr
  | .remT tr => remT tr
  | .enc tr => enc tr
  | .decD tr => decD tr
  | .decL tr => decL tr
  | .init => init

namespace Sys2Proof.Machine

/-! ### At most one row matches, and the word's row is what the decoder answers -/

/-- Two rows that disagree on a bit both of them test. -/
def DisjointRows (r r' : OpcodeRow) : Prop := r.mtch &&& r'.mask ≠ r'.mtch &&& r.mask

theorem opcodeRows_pairwise_disjoint : opcodeRows.Pairwise DisjointRows := by
  simp [opcodeRows, DisjointRows]

theorem rowMatches_iff {cw : CommandWord} {r : OpcodeRow} :
    rowMatches cw r = true ↔ cw &&& r.mask = r.mtch := beq_iff_eq

theorem DisjointRows.not_both_match {r r' : OpcodeRow} (h : DisjointRows r r')
    {cw : CommandWord} (hr : rowMatches cw r = true) : rowMatches cw r' ≠ true := by
  intro hr'
  refine h ?_
  rw [← rowMatches_iff.mp hr, ← rowMatches_iff.mp hr', BitVec.and_assoc, BitVec.and_assoc,
    BitVec.and_comm r.mask]

/-- Settles O4: of two rows that matched, the disjointness of the map's rows refutes one. -/
theorem noWordMatchesTwoRows : Obligations.NoWordMatchesTwoRows := by
  intro cw
  have hdisjoint := opcodeRows_pairwise_disjoint.filter (rowMatches cw)
  have hmatch : ∀ r ∈ opcodeRows.filter (rowMatches cw), rowMatches cw r = true :=
    fun r hr => (List.mem_filter.mp hr).2
  rcases h : opcodeRows.filter (rowMatches cw) with _ | ⟨r, _ | ⟨r', rest⟩⟩ <;>
    rw [h] at hdisjoint hmatch
  · exact zero_le_one
  · exact le_rfl
  · have hrr' := List.rel_of_pairwise_cons hdisjoint List.mem_cons_self
    exact absurd (hmatch r' (by simp)) (hrr'.not_both_match (hmatch r (by simp)))

theorem decode_of_rowMatches {cw : CommandWord} {r : OpcodeRow} (hr : r ∈ opcodeRows)
    (hmatch : rowMatches cw r = true) : decode cw = .ok (r.build cw) := by
  have hmem : r ∈ opcodeRows.filter (rowMatches cw) := List.mem_filter.mpr ⟨hr, hmatch⟩
  obtain ⟨r', hr'⟩ := List.length_eq_one_iff.mp
    (le_antisymm (noWordMatchesTwoRows cw) (List.length_pos_of_mem hmem))
  rw [hr', List.mem_singleton] at hmem
  rw [decode, hr', hmem]

theorem decode_of_no_rowMatches {cw : CommandWord}
    (h : ∀ r ∈ opcodeRows, ¬ rowMatches cw r = true) : decode cw = .error .illegalCommand := by
  rw [decode, List.filter_eq_nil_iff.mpr h]

/-- R78: the decoder answers a command exactly when a row matches and stands for it. -/
theorem decode_eq_ok_iff {cw : CommandWord} {i : Instr} :
    decode cw = .ok i ↔ ∃ r ∈ opcodeRows, rowMatches cw r = true ∧ r.build cw = i := by
  constructor
  · intro h
    by_cases hrow : ∃ r ∈ opcodeRows, rowMatches cw r = true
    · obtain ⟨r, hr, hmatch⟩ := hrow
      rw [decode_of_rowMatches hr hmatch] at h
      exact ⟨r, hr, hmatch, by injection h⟩
    · rw [decode_of_no_rowMatches (by simpa using hrow)] at h
      cases h
  · rintro ⟨r, hr, hmatch, rfl⟩
    exact decode_of_rowMatches hr hmatch

/-- R79: a word is illegal exactly when no row matches. -/
theorem decode_eq_error_iff {cw : CommandWord} :
    decode cw = .error .illegalCommand ↔ ∀ r ∈ opcodeRows, ¬ rowMatches cw r = true := by
  refine ⟨fun h r hr hmatch => ?_, decode_of_no_rowMatches⟩
  rw [decode_of_rowMatches hr hmatch] at h
  cases h

/-! ### The fields of a command word (R70 to R73) -/

/-- Two neighbouring fields of a word are one field. -/
theorem field_append (cw : CommandWord) {start₂ start₁ len₁ len₂ : Nat}
    (h : start₂ = start₁ + len₁) :
    cw.extractLsb' start₂ len₂ ++ cw.extractLsb' start₁ len₁ =
      cw.extractLsb' start₁ (len₂ + len₁) :=
  BitVec.extractLsb'_append_extractLsb'_eq_extractLsb' h

theorem ofBool_getLsbD (cw : CommandWord) (n : Nat) :
    BitVec.ofBool (cw.getLsbD n) = cw.extractLsb' n 1 := by
  refine BitVec.eq_of_getLsbD_eq fun i hi => ?_
  obtain rfl : i = 0 := by omega
  simp

/-- A word is its four fields of format L. -/
theorem eq_loadFields (cw : CommandWord) :
    cw = cw.extractLsb' 28 4 ++ cw.extractLsb' 21 7 ++ lenField cw ++ bitsField cw := by
  rw [lenField, bitsField, field_append cw (show 28 = 21 + 7 from rfl),
    field_append cw (show 21 = 16 + 5 from rfl), field_append cw (show 16 = 0 + 16 from rfl)]
  exact BitVec.extractLsb'_eq_self.symm

/-- A word is its four fields of format O. -/
theorem eq_operateFields (cw : CommandWord) :
    cw = cw.extractLsb' 28 4 ++ cw.extractLsb' 2 26 ++ BitVec.ofBool (trField cw) ++
      BitVec.ofBool (cw.getLsbD 0) := by
  rw [trField, ofBool_getLsbD, ofBool_getLsbD, field_append cw (show 28 = 2 + 26 from rfl),
    field_append cw (show 2 = 1 + 1 from rfl), field_append cw (show 1 = 0 + 1 from rfl)]
  exact BitVec.extractLsb'_eq_self.symm

/-- A word is its two fields of format Z. -/
theorem eq_initFields (cw : CommandWord) : cw = cw.extractLsb' 28 4 ++ cw.extractLsb' 0 28 := by
  rw [field_append cw (show 28 = 0 + 28 from rfl)]
  exact BitVec.extractLsb'_eq_self.symm

/-- The mask of LDA and LDB on a word in fields: it tests OP and the reserved bits. -/
theorem append_and_loadMask (op op' : BitVec 4) (reserved : BitVec 7) (len : BitVec 5)
    (bits : BitVec 16) :
    (op ++ reserved ++ len ++ bits) &&&
        (BitVec.allOnes 4 ++ BitVec.allOnes 7 ++ 0#5 ++ 0#16) = op' ++ 0#7 ++ 0#5 ++ 0#16 ↔
      op = op' ∧ reserved = 0 := by
  simp only [BitVec.and_append, bitVec_append_inj_iff, BitVec.and_allOnes, BitVec.and_zero,
    and_true]
  rfl

/-- The mask of the traced commands on a word in fields: it tests every field but TR. -/
theorem append_and_operateMask (op op' : BitVec 4) (reserved : BitVec 26) (tr sel sel' : Bool) :
    (op ++ reserved ++ BitVec.ofBool tr ++ BitVec.ofBool sel) &&&
        (BitVec.allOnes 4 ++ BitVec.allOnes 26 ++ 0#1 ++ BitVec.allOnes 1) =
        op' ++ 0#26 ++ 0#1 ++ BitVec.ofBool sel' ↔
      op = op' ∧ reserved = 0 ∧ sel = sel' := by
  simp only [BitVec.and_append, bitVec_append_inj_iff, BitVec.and_allOnes, BitVec.and_zero,
    and_true, BitVec.ofBool_eq_iff_eq, and_assoc]
  rfl

/-- What the mask of LDA and LDB tests (R77): OP and the reserved bits of format L. -/
theorem and_loadMask_eq_iff (cw : CommandWord) (op : BitVec 4) :
    cw &&& 0xFFE00000 = formatL op 0 0 ↔ cw.extractLsb' 28 4 = op ∧ cw.extractLsb' 21 7 = 0 :=
  (iff_of_eq (congrArg (· &&& 0xFFE00000 = formatL op 0 0) (eq_loadFields cw))).trans
    (append_and_loadMask _ op _ _ _)

/-- What the mask of the traced commands tests: OP, the reserved bits of format O and SEL. -/
theorem and_operateMask_eq_iff (cw : CommandWord) (op : BitVec 4) (sel : Bool) :
    cw &&& 0xFFFFFFFD = formatO op false sel ↔
      cw.extractLsb' 28 4 = op ∧ cw.extractLsb' 2 26 = 0 ∧ cw.getLsbD 0 = sel :=
  (iff_of_eq (congrArg (· &&& 0xFFFFFFFD = formatO op false sel) (eq_operateFields cw))).trans
    (append_and_operateMask _ op _ _ _ sel)

/-- What INIT's mask tests: OP and the reserved bits of format Z. -/
theorem and_initMask_eq_iff (cw : CommandWord) (op : BitVec 4) :
    cw &&& 0xFFFFFFFF = formatZ op ↔ cw.extractLsb' 28 4 = op ∧ cw.extractLsb' 0 28 = 0 := by
  have hmask : (0xFFFFFFFF : CommandWord) = BitVec.allOnes 32 := by decide
  rw [hmask, BitVec.and_allOnes]
  conv_lhs => rw [eq_initFields cw]
  exact bitVec_append_inj_iff

/-! ### A command's fields from its word, and back -/

theorem bitsField_formatL (op : BitVec 4) (len : BitVec 5) (bits : BitVec 16) :
    bitsField (formatL op len bits) = bits := BitVec.extractLsb'_append_eq_right

theorem lenField_formatL (op : BitVec 4) (len : BitVec 5) (bits : BitVec 16) :
    lenField (formatL op len bits) = len :=
  (extractLsb'_append_add _ bits 0 5).trans BitVec.extractLsb'_append_eq_right

theorem trField_formatO (op : BitVec 4) (tr sel : Bool) : trField (formatO op tr sel) = tr :=
  (getLsbD_append_add _ (BitVec.ofBool sel) 0).trans (getLsbD_append_ofBool _ tr)

theorem formatL_fields {cw : CommandWord} {op : BitVec 4}
    (h : cw &&& 0xFFE00000 = formatL op 0 0) : formatL op (lenField cw) (bitsField cw) = cw := by
  obtain ⟨hop, hreserved⟩ := (and_loadMask_eq_iff cw op).mp h
  conv_rhs => rw [eq_loadFields cw, hop, hreserved]
  rfl

theorem formatO_fields {cw : CommandWord} {op : BitVec 4} {sel : Bool}
    (h : cw &&& 0xFFFFFFFD = formatO op false sel) : formatO op (trField cw) sel = cw := by
  obtain ⟨hop, hreserved, hsel⟩ := (and_operateMask_eq_iff cw op sel).mp h
  conv_rhs => rw [eq_operateFields cw, hop, hreserved, hsel]
  rfl

/-- The row of a command's mnemonic gives the command back from its word. -/
theorem exists_row_build_encode (i : Instr) :
    ∃ r ∈ opcodeRows, r.mnemonic = Laws.EncodingInRow.rowName i ∧ r.build (encode i) = i := by
  cases i with
  | lda len bits =>
    exact ⟨_, List.mem_of_getElem? (i := 0) rfl, rfl,
      congrArg₂ Instr.lda (lenField_formatL _ len bits) (bitsField_formatL _ len bits)⟩
  | ldb len bits =>
    exact ⟨_, List.mem_of_getElem? (i := 1) rfl, rfl,
      congrArg₂ Instr.ldb (lenField_formatL _ len bits) (bitsField_formatL _ len bits)⟩
  | remF tr =>
    exact ⟨_, List.mem_of_getElem? (i := 2) rfl, rfl, congrArg Instr.remF (trField_formatO _ tr _)⟩
  | remT tr =>
    exact ⟨_, List.mem_of_getElem? (i := 3) rfl, rfl, congrArg Instr.remT (trField_formatO _ tr _)⟩
  | enc tr =>
    exact ⟨_, List.mem_of_getElem? (i := 4) rfl, rfl, congrArg Instr.enc (trField_formatO _ tr _)⟩
  | decD tr =>
    exact ⟨_, List.mem_of_getElem? (i := 5) rfl, rfl, congrArg Instr.decD (trField_formatO _ tr _)⟩
  | decL tr =>
    exact ⟨_, List.mem_of_getElem? (i := 6) rfl, rfl, congrArg Instr.decL (trField_formatO _ tr _)⟩
  | init => exact ⟨_, List.mem_of_getElem? (i := 7) rfl, rfl, rfl⟩

/-- Settles O2: the row of the command's mnemonic matches its word and reads its fields back. -/
theorem decodeInvertsEncode : Obligations.DecodeInvertsEncode := by
  intro i
  obtain ⟨r, hr, hname, hbuild⟩ := exists_row_build_encode i
  rw [decode_of_rowMatches hr (Laws.EncodingInRow.statement i r hr hname), hbuild]

/-- The core runs a command given as its own word. -/
theorem acceptWord_encode (i : Instr) (s : State) : acceptWord (encode i) s = exec i s := by
  rw [acceptWord, decodeInvertsEncode i]

/-- The bits a row's mask tests and the fields its command holds are the whole word. -/
theorem encode_build_of_rowMatches {cw : CommandWord} :
    ∀ r ∈ opcodeRows, rowMatches cw r = true → encode (r.build cw) = cw := by
  simp only [opcodeRows, List.forall_mem_cons, List.not_mem_nil, false_implies, implies_true,
    and_true, rowMatches_iff]
  refine ⟨?lda, ?ldb, ?remF, ?remT, ?enc, ?decD, ?decL, ?init⟩
  case lda => exact formatL_fields (op := 1)
  case ldb => exact formatL_fields (op := 2)
  case remF => exact formatO_fields (op := 3) (sel := false)
  case remT => exact formatO_fields (op := 3) (sel := true)
  case enc => exact formatO_fields (op := 4) (sel := false)
  case decD => exact formatO_fields (op := 5) (sel := false)
  case decL => exact formatO_fields (op := 5) (sel := true)
  case init => exact fun h => h.symm.trans (BitVec.and_allOnes)

/-- Settles O3, row by row. -/
theorem encodeInvertsDecode : Obligations.EncodeInvertsDecode := by
  intro cw i h
  obtain ⟨r, hr, hmatch, rfl⟩ := decode_eq_ok_iff.mp h
  exact encode_build_of_rowMatches r hr hmatch

/-- Settles O1: each word is the word of the command it decodes to. -/
theorem writtenWordsDecode : Obligations.WrittenWordsDecode :=
  ⟨decodeInvertsEncode (.lda 7 0x5A), decodeInvertsEncode (.ldb 4 0xB),
    decodeInvertsEncode (.remF false), decodeInvertsEncode (.remF true),
    decodeInvertsEncode (.remT false), decodeInvertsEncode (.remT true),
    decodeInvertsEncode (.enc false), decodeInvertsEncode (.enc true),
    decodeInvertsEncode (.decD false), decodeInvertsEncode (.decD true),
    decodeInvertsEncode (.decL false), decodeInvertsEncode (.decL true),
    decodeInvertsEncode .init⟩

/-! ### The illegal words (R79) -/

/-- What each of the eight rows tests, in the order of the map. -/
theorem decode_eq_error_iff_fields (cw : CommandWord) :
    decode cw = .error .illegalCommand ↔
      ¬ (cw.extractLsb' 28 4 = 1 ∧ cw.extractLsb' 21 7 = 0) ∧
      ¬ (cw.extractLsb' 28 4 = 2 ∧ cw.extractLsb' 21 7 = 0) ∧
      ¬ (cw.extractLsb' 28 4 = 3 ∧ cw.extractLsb' 2 26 = 0 ∧ cw.getLsbD 0 = false) ∧
      ¬ (cw.extractLsb' 28 4 = 3 ∧ cw.extractLsb' 2 26 = 0 ∧ cw.getLsbD 0 = true) ∧
      ¬ (cw.extractLsb' 28 4 = 4 ∧ cw.extractLsb' 2 26 = 0 ∧ cw.getLsbD 0 = false) ∧
      ¬ (cw.extractLsb' 28 4 = 5 ∧ cw.extractLsb' 2 26 = 0 ∧ cw.getLsbD 0 = false) ∧
      ¬ (cw.extractLsb' 28 4 = 5 ∧ cw.extractLsb' 2 26 = 0 ∧ cw.getLsbD 0 = true) ∧
      ¬ (cw.extractLsb' 28 4 = 6 ∧ cw.extractLsb' 0 28 = 0) := by
  rw [decode_eq_error_iff]
  simp only [opcodeRows, List.forall_mem_cons, List.not_mem_nil, false_implies, implies_true,
    and_true, rowMatches_iff]
  exact and_congr (not_congr (and_loadMask_eq_iff cw 1)) <|
    and_congr (not_congr (and_loadMask_eq_iff cw 2)) <|
    and_congr (not_congr (and_operateMask_eq_iff cw 3 false)) <|
    and_congr (not_congr (and_operateMask_eq_iff cw 3 true)) <|
    and_congr (not_congr (and_operateMask_eq_iff cw 4 false)) <|
    and_congr (not_congr (and_operateMask_eq_iff cw 5 false)) <|
    and_congr (not_congr (and_operateMask_eq_iff cw 5 true)) <|
    not_congr (and_initMask_eq_iff cw 6)

/-- OP is one of the six assigned numbers or not (R79). -/
theorem op_cases : ∀ op : BitVec 4, (op = 0 ∨ 7 ≤ op.toNat) ∨
    op = 1 ∨ op = 2 ∨ op = 3 ∨ op = 4 ∨ op = 5 ∨ op = 6 := by decide

/-- Settles O5: R79's list by the values of OP, where each row's test reads one clause. -/
theorem illegalWordsAreRefused : Obligations.IllegalWordsAreRefused := by
  refine ⟨fun cw => ?_, by decide, by decide, fun cw s h => acceptWord_of_illegal h s⟩
  rw [decode_eq_error_iff_fields]
  generalize cw.extractLsb' 28 4 = op
  obtain (rfl | hlarge) | rfl | rfl | rfl | rfl | rfl | rfl := op_cases op
  case inl.inr =>
    have hne : ∀ n : BitVec 4, n.toNat < 7 → op ≠ n := fun n hn h => by subst h; omega
    simp [hlarge, hne]
  all_goals cases cw.getLsbD 0 <;> simp

end Sys2Proof.Machine

/-! ## The text of a load of a bit string (30_encoding.md R80, R81) -/

namespace Sys2Proof.Machine

/-! ### Lines and tokens -/

/-- A character that ends no token and begins no comment (log entry 12). -/
def Plain (c : Char) : Prop := c ≠ ' ' ∧ c ≠ '\t' ∧ c ≠ ',' ∧ c ≠ ';'

theorem Plain.ne_comment {c : Char} : Plain c → c ≠ ';'
  | ⟨_, _, _, hcomment⟩ => hcomment

/-- Plain characters are gathered into the current token. -/
theorem tokensFrom_plain_append {cs : List Char} (h : ∀ c ∈ cs, Plain c) (acc rest : List Char) :
    tokensFrom acc (cs ++ rest) = tokensFrom (acc ++ cs) rest := by
  induction cs generalizing acc with
  | nil => rw [List.nil_append, List.append_nil]
  | cons c cs ih =>
    obtain ⟨⟨hblank, htab, hcomma, -⟩, hcs⟩ := List.forall_mem_cons.mp h
    rw [List.cons_append, tokensFrom, if_neg (not_or.mpr ⟨hblank, htab⟩), if_neg hcomma, ih hcs,
      List.append_assoc, List.singleton_append]

theorem tokensFrom_pair {m x : List Char} (hm : ∀ c ∈ m, Plain c) (hx : ∀ c ∈ x, Plain c)
    (hm0 : m ≠ []) (hx0 : x ≠ []) : tokensFrom [] (m ++ ' ' :: x) = [m, x] := by
  rw [tokensFrom_plain_append hm, tokensFrom, if_pos (.inl rfl), ← List.append_nil x,
    tokensFrom_plain_append hx, tokensFrom]
  simp [pendingToken, hm0, hx0]

/-- A line of two tokens and no comment. -/
theorem asmLine_pair {m x : List Char} (hm : ∀ c ∈ m, Plain c) (hx : ∀ c ∈ x, Plain c)
    (hm0 : m ≠ []) (hx0 : x ≠ []) :
    asmLine (m ++ ' ' :: x) = (asmPair m x).map (BitVec.ofNat 32) := by
  have hcomment : (m ++ ' ' :: x).takeWhile (· ≠ ';') = m ++ ' ' :: x := by
    refine List.takeWhile_eq_self_iff.mpr fun c hc => decide_eq_true ?_
    obtain hc | rfl | hc := by simpa using hc
    exacts [(hm c hc).ne_comment, by decide, (hx c hc).ne_comment]
  rw [asmLine, hcomment, tokensFrom_pair hm hx hm0 hx0, asmTokens]

/-! ### A quoted token -/

/-- A token that holds characters between quotes. -/
def quoted (cs : List Char) : List Char := quoteChar :: (cs ++ [quoteChar])

theorem plain_quoted {cs : List Char} (h : ∀ c ∈ cs, Plain c) : ∀ c ∈ quoted cs, Plain c := by
  have hquote : Plain quoteChar := by unfold Plain; decide
  intro c hc
  obtain rfl | hc | rfl := by simpa [quoted] using hc
  exacts [hquote, h c hc, hquote]

theorem unquote_quoted (cs : List Char) : unquote (quoted cs) = some cs := by
  simp [quoted, unquote]

/-- A load mnemonic before a quoted token loads the bit string between the quotes (R81). -/
theorem asmPair_quoted {m : List Char} {base : Nat} (hbase : loadBase m = some base)
    (cs : List Char) :
    asmPair m (quoted cs) =
      (bitString cs).bind fun v => loadWord base v.length (uint v) := by
  have htrace : quoted cs ≠ ['T', 'R', 'A', 'C', 'E'] := fun h =>
    absurd (List.cons.inj h).1 (by decide)
  have hword : m ≠ ['.', 'w', 'o', 'r', 'd'] := by
    rintro rfl
    exact absurd hbase (by simp [loadBase])
  rw [asmPair, if_neg htrace, if_neg hword, hbase, unquote_quoted]
  rfl

theorem bitString_of_bits {cs : List Char} (hbits : ∀ c ∈ cs, c = '0' ∨ c = '1')
    (hlen : cs.length ≤ 16) : bitString cs = some (cs.map fun c => decide (c = '1')) :=
  if_pos ⟨hlen, by simpa using hbits⟩

theorem bitString_eq_none {cs : List Char}
    (h : (∃ c ∈ cs, c ≠ '0' ∧ c ≠ '1') ∨ 16 < cs.length) : bitString cs = none := by
  refine if_neg fun ⟨hlen, hbits⟩ => ?_
  obtain ⟨c, hc, hzero, hone⟩ | hlong := h
  · simpa [hzero, hone] using List.all_eq_true.mp hbits c hc
  · exact absurd hlen (Nat.not_le.mpr hlong)

/-! ### The word of a load -/

/-- R80's number for a load, `base | (len << 16) | field`, is the word of format L. -/
theorem ofNat_loadWord (op : BitVec 4) (len : BitVec 5) (bits : BitVec 16) :
    BitVec.ofNat 32 (op.toNat <<< 28 ||| len.toNat <<< 16 ||| bits.toNat) = formatL op len bits := by
  have htoNat : (formatL op len bits).toNat =
      op.toNat <<< 28 ||| len.toNat <<< 16 ||| bits.toNat := by
    show (op ++ 0#7 ++ len ++ bits : BitVec (4 + 7 + 5 + 16)).toNat = _
    rw [BitVec.toNat_append, BitVec.toNat_append, BitVec.toNat_append, BitVec.toNat_ofNat,
      Nat.zero_mod, Nat.or_zero, Nat.shiftLeft_or_distrib, ← Nat.shiftLeft_add,
      ← Nat.shiftLeft_add]
  rw [← htoNat, BitVec.ofNat_toNat, BitVec.setWidth_eq]

/-- The word that loads a vector: its length as LEN and its number as BITS (R74). -/
def vectorWord (op : BitVec 4) (v : Vec) : CommandWord :=
  formatL op (BitVec.ofNat 5 v.length) (BitVec.ofNat 16 (uint v))

/-! ### Vectors that a register can hold (R10) -/

section
variable {v : Vec} (hv : v.length ≤ 16)
include hv

theorem toNat_length_of_fits : (BitVec.ofNat 5 v.length).toNat = v.length := by
  rw [BitVec.toNat_ofNat, Nat.mod_eq_of_lt (by omega)]

theorem uint_lt_of_fits : uint v < 2 ^ 16 :=
  (uint_lt_two_pow v).trans_le (Nat.pow_le_pow_right two_pos hv)

theorem toNat_uint_of_fits : (BitVec.ofNat 16 (uint v)).toNat = uint v := by
  rw [BitVec.toNat_ofNat, Nat.mod_eq_of_lt (uint_lt_of_fits hv)]

theorem loadWord_of_fits (op : BitVec 4) :
    (loadWord (op.toNat <<< 28) v.length (uint v)).map (BitVec.ofNat 32) =
      some (vectorWord op v) := by
  rw [loadWord, if_pos ⟨by omega, uint_lt_of_fits hv⟩, Option.map_some, vectorWord,
    ← ofNat_loadWord, toNat_length_of_fits hv, toNat_uint_of_fits hv]

/-- R92's check accepts a vector's own length and number, and assembles the vector. -/
theorem loadCheck_uint : loadCheck v.length (uint v) = .ok v :=
  (if_neg (Nat.not_lt.mpr hv)).trans <| (if_neg (uint_lt_two_pow v).not_ge).trans <|
    congrArg Except.ok (vec_uint v)

theorem loadWith_uint (write : Vec → State → State) (s : State) :
    loadWith write (BitVec.ofNat 5 v.length) (BitVec.ofNat 16 (uint v)) s =
      complete (write v s) := by
  rw [loadWith, toNat_length_of_fits hv, toNat_uint_of_fits hv, loadCheck_uint hv]

theorem acceptWord_vectorWord_lda (s : State) :
    acceptWord (vectorWord 1 v) s = .next { s with a := v, err := 0 } :=
  (acceptWord_encode (.lda _ _) s).trans (congrArg _ (loadWith_uint hv writeA s))

theorem acceptWord_vectorWord_ldb (s : State) :
    acceptWord (vectorWord 2 v) s = .next { s with b := v, err := 0 } :=
  (acceptWord_encode (.ldb _ _) s).trans (congrArg _ (loadWith_uint hv writeB s))

end

/-! ### The text of a load -/

theorem plain_of_loadBase {m : List Char} {base : Nat} (h : loadBase m = some base) :
    m ≠ [] ∧ ∀ c ∈ m, Plain c := by
  unfold loadBase at h
  split at h
  · next hlda => subst hlda; simp [Plain]
  · split at h
    · next hldb => subst hldb; simp [Plain]
    · cases h

/-- A load of a quoted string, up to the reading of the string (R81). -/
theorem asmLine_quoted {m cs : List Char} {base : Nat} (hbase : loadBase m = some base)
    (hcs : ∀ c ∈ cs, Plain c) :
    asmLine (m ++ ' ' :: quoted cs) =
      ((bitString cs).bind fun v => loadWord base v.length (uint v)).map (BitVec.ofNat 32) := by
  obtain ⟨hm0, hm⟩ := plain_of_loadBase hbase
  rw [asmLine_pair hm (plain_quoted hcs) hm0 (List.cons_ne_nil _ _), asmPair_quoted hbase]

theorem asmLine_quoted_of_bits {m cs : List Char} {op : BitVec 4}
    (hbase : loadBase m = some (op.toNat <<< 28)) (hcs : ∀ c ∈ cs, Plain c)
    (hbits : ∀ c ∈ cs, c = '0' ∨ c = '1') (hlen : cs.length ≤ 16) :
    asmLine (m ++ ' ' :: quoted cs) =
      some (vectorWord op (cs.map fun c => decide (c = '1'))) := by
  rw [asmLine_quoted hbase hcs, bitString_of_bits hbits hlen, Option.bind_some,
    loadWord_of_fits (List.length_map _ |>.trans_le hlen)]

theorem asmLine_quoted_eq_none {m cs : List Char} {base : Nat} (hbase : loadBase m = some base)
    (hcs : ∀ c ∈ cs, Plain c) (h : (∃ c ∈ cs, c ≠ '0' ∧ c ≠ '1') ∨ 16 < cs.length) :
    asmLine (m ++ ' ' :: quoted cs) = none := by
  rw [asmLine_quoted hbase hcs, bitString_eq_none h]
  rfl

/-- Settles O56: the line assembles to the word of the string's bits, and the core decodes that word
to a load the check of R92 accepts. -/
theorem bitStringLoadsItsBits : Obligations.BitStringLoadsItsBits := by
  intro cs hcs
  have hlda : loadBase ['L', 'D', 'A'] = some ((1 : BitVec 4).toNat <<< 28) := by decide
  have hldb : loadBase ['L', 'D', 'B'] = some ((2 : BitVec 4).toNat <<< 28) := by decide
  refine ⟨fun hbits hlen => ?_, fun hbad =>
    ⟨asmLine_quoted_eq_none hlda hcs hbad, asmLine_quoted_eq_none hldb hcs hbad⟩⟩
  have hv : (cs.map fun c => decide (c = '1')).length ≤ 16 := (List.length_map _).trans_le hlen
  exact ⟨_, _, asmLine_quoted_of_bits hlda hcs hbits hlen,
    asmLine_quoted_of_bits hldb hcs hbits hlen,
    fun s => ⟨acceptWord_vectorWord_lda hv s, acceptWord_vectorWord_ldb hv s⟩⟩

end Sys2Proof.Machine

/-! ## The operand loads (40_operand_load.md R90 to R92) -/

namespace Sys2Proof.Machine

/-- Element i of an assembled vector is bit `L - 1 - i` of its number (R14, R74). -/
theorem getElem?_vec (x : Nat) {n i : Nat} (h : i < n) :
    (vec x n)[i]? = some (x.testBit (n - 1 - i)) := by
  induction n generalizing i with
  | zero => exact absurd h (Nat.not_lt_zero i)
  | succ n ih =>
    cases i with
    | zero => rfl
    | succ i =>
      have hindex : n + 1 - 1 - (i + 1) = n - 1 - i := by omega
      rw [vec, List.getElem?_cons_succ, ih (Nat.lt_of_succ_lt_succ h), hindex]

/-! ### Each clause of the load check's effect, for either register -/

theorem loadWith_of_long (write : Vec → State → State) {len : BitVec 5} (bits : BitVec 16)
    (s : State) (hlong : 16 < len.toNat) :
    loadWith write len bits s = raise .invalidInputLength s := by
  obtain ⟨-, h⟩ | ⟨hlen, -⟩ | ⟨hlen, -⟩ := loadWith_cases write len bits s
  · exact h
  · omega
  · omega

theorem loadWith_of_wide (write : Vec → State → State) {len : BitVec 5} {bits : BitVec 16}
    (s : State) (hlen : len.toNat ≤ 16) (hwide : 2 ^ len.toNat ≤ bits.toNat) :
    loadWith write len bits s = raise .invalidInputAlphabet s := by
  obtain ⟨hlong, -⟩ | ⟨-, -, h⟩ | ⟨-, hbits, -⟩ := loadWith_cases write len bits s
  · omega
  · exact h
  · exact absurd hwide hbits.not_ge

theorem loadWith_of_fits (write : Vec → State → State) {len : BitVec 5} {bits : BitVec 16}
    (s : State) (hlen : len.toNat ≤ 16) (hbits : bits.toNat < 2 ^ len.toNat) :
    loadWith write len bits s = complete (write (vec bits.toNat len.toNat) s) := by
  obtain ⟨hlong, -⟩ | ⟨-, hwide, -⟩ | ⟨-, -, h⟩ := loadWith_cases write len bits s
  · omega
  · exact absurd hwide hbits.not_ge
  · exact h

/-- R90 and R91 for the register that `write` sets. -/
theorem loadWith_loads_or_refuses (write : Vec → State → State) (len : BitVec 5)
    (bits : BitVec 16) (s : State) :
    (len.toNat ≤ 16 → bits.toNat < 2 ^ len.toNat →
      ∃ v : Vec, (.next (loadWith write len bits s) : Result) = .next (complete (write v s)) ∧
        v.length = len.toNat ∧ uint v = bits.toNat ∧
        ∀ i, i < len.toNat → v[i]? = some (bits.getLsbD (len.toNat - 1 - i))) ∧
    (16 < len.toNat →
      (.next (loadWith write len bits s) : Result) = .next (raise .invalidInputLength s)) ∧
    (len.toNat ≤ 16 → 2 ^ len.toNat ≤ bits.toNat →
      (.next (loadWith write len bits s) : Result) = .next (raise .invalidInputAlphabet s)) :=
  ⟨fun hlen hbits => ⟨vec bits.toNat len.toNat, congrArg _ (loadWith_of_fits write s hlen hbits),
      length_vec _ _, uint_vec_of_lt hbits, fun _ hi => getElem?_vec _ hi⟩,
    fun hlong => congrArg _ (loadWith_of_long write bits s hlong),
    fun hlen hwide => congrArg _ (loadWith_of_wide write s hlen hwide)⟩

/-- A REM whose B holds no divisor refuses it, in either mode (R109). -/
theorem remWith_of_not_divisor (mode : Vec → Vec → Vec) (tr : Bool) {s : State}
    (h : s.b.head? ≠ some true) : remWith mode tr s = raise .invalidDivisor s := by
  obtain ⟨hdivisor, -⟩ | ⟨-, hrefuse⟩ := remWith_cases mode tr s
  · exact absurd hdivisor h
  · exact hrefuse

/-- Settles O15: the load with A as the register, and the example as the word of its vector. -/
theorem ldaLoadsOrRefuses : Obligations.LdaLoadsOrRefuses := by
  refine ⟨loadWith_loads_or_refuses writeA, fun s => ?_⟩
  have hword : vectorWord 1 [true, false, true, true, false, true, false] = 0x1007005A := by decide
  rw [← hword]
  exact acceptWord_vectorWord_lda (by decide) s

/-- Settles O16: the load with B as the register; a vector that begins with 0 is loaded, and the REM
that follows finds it no divisor. -/
theorem ldbLoadsOrRefuses : Obligations.LdbLoadsOrRefuses := by
  refine ⟨loadWith_loads_or_refuses writeB, fun s => ?_, fun s tr => ⟨?_, ?_, ?_⟩⟩
  · have hword : vectorWord 2 [true, false, true, true] = 0x2004000B := by decide
    rw [← hword]
    exact acceptWord_vectorWord_ldb (by decide) s
  · exact congrArg Host.Outcome.next
      (loadWith_uint (v := [false, false, true, true]) (by decide) writeB s)
  · exact congrArg Host.Outcome.next (remWith_of_not_divisor remFixed tr (by simp))
  · exact congrArg Host.Outcome.next (remWith_of_not_divisor remTrim tr (by simp))

end Sys2Proof.Machine

/-! ## The remainder engine (41_remainder.md R100 to R113) -/

namespace Sys2Proof.Machine

/-! ### The division loop in closed form (R100, R105, R110) -/

/-- The working dividend at the start of iteration `i` (R100). -/
def dividendAt (a d : Vec) : Nat → Vec
  | 0 => a
  | i + 1 => drop1 (divXor (dividendAt a d i) d)

/-- The record of iteration `i` (R110). -/
def recordAt (a d : Vec) (i : Nat) : StepRecord :=
  ⟨i, bitAt (dividendAt a d i) 0, dividendAt a d i, divXor (dividendAt a d i) d⟩

@[simp] theorem length_dividendAt (a d : Vec) (i : Nat) :
    (dividendAt a d i).length = a.length - i := by
  induction i with
  | zero => rfl
  | succ i ih => rw [dividendAt, length_drop1, length_divXor, ih, Nat.sub_sub]

/-- The loop entered at iteration `i`, with `n` of the `la + 1 - ld` iterations left. -/
theorem divLoop_dividendAt {a d : Vec} (hd : 1 ≤ d.length) {n fuel i : Nat}
    (hn : i + n = a.length + 1 - d.length) (hfuel : n ≤ fuel) :
    divLoop d fuel i (dividendAt a d i) =
      (dividendAt a d (i + n), (List.range' i n).map (recordAt a d)) := by
  induction n generalizing fuel i with
  | zero => exact divLoop_stop _ _ _ _ (by rw [length_dividendAt]; omega)
  | succ n ih =>
    obtain ⟨fuel, rfl⟩ := Nat.exists_eq_add_one.mpr (Nat.zero_lt_of_lt hfuel)
    have htail := ih (i := i + 1) (by omega) (Nat.le_of_succ_le_succ hfuel)
    rw [dividendAt, Nat.add_right_comm] at htail
    rw [divLoop_step _ _ _ _ hd (by rw [length_dividendAt]; omega), htail]
    rfl

theorem divLoop_eq (a : Vec) {d : Vec} (hd : 1 ≤ d.length) :
    divLoop d a.length 0 a =
      (dividendAt a d (a.length + 1 - d.length),
        (List.range' 0 (a.length + 1 - d.length)).map (recordAt a d)) := by
  have h := divLoop_dividendAt (a := a) hd (fuel := a.length) (Nat.zero_add _) (by omega)
  rwa [Nat.zero_add] at h

theorem remRaw_eq_dividendAt (a : Vec) {d : Vec} (hd : 1 ≤ d.length) :
    remRaw a d = dividendAt a d (a.length + 1 - d.length) :=
  congrArg Prod.fst (divLoop_eq a hd)

theorem remTrace_eq_map (a : Vec) {d : Vec} (hd : 1 ≤ d.length) :
    remTrace a d = (List.range' 0 (a.length + 1 - d.length)).map (recordAt a d) :=
  congrArg Prod.snd (divLoop_eq a hd)

theorem length_remTrace (a : Vec) {d : Vec} (hd : 1 ≤ d.length) :
    (remTrace a d).length = a.length + 1 - d.length := by
  rw [remTrace_eq_map a hd, List.length_map, List.length_range']

theorem getElem?_remTrace_eq_some_iff {a d : Vec} (hd : 1 ≤ d.length) {i : Nat} {r : StepRecord} :
    (remTrace a d)[i]? = some r ↔ i < a.length + 1 - d.length ∧ r = recordAt a d i := by
  rw [remTrace_eq_map a hd, List.getElem?_map]
  by_cases hi : i < a.length + 1 - d.length
  · simp [hi, eq_comm]
  · simp [hi]

/-- Settles O21: one record per iteration of the closed form. -/
theorem divisionIterationCount : Obligations.DivisionIterationCount := by
  refine ⟨fun a d hd => ?_, fun a ha => ?_⟩
  · have hpos := one_le_length_of_head? hd
    rw [length_remTrace a hpos]
    omega
  · rw [length_remTrace a (le_refl 1), ha]
    rfl

/-- An element that exists is what `bitAt` reads. -/
theorem getElem?_zero_eq_bitAt {w : Vec} (h : 1 ≤ w.length) : w[0]? = some (bitAt w 0) := by
  cases w with
  | nil => cases h
  | cons b w => rfl

/-- The conditional xor of one iteration, element by element (R100). -/
theorem bitAt_divXor {w d : Vec} (hlead : bitAt w 0 = true) (hle : d.length ≤ w.length) (j : Nat) :
    bitAt (divXor w d) j = (bitAt w j ^^ bitAt d j) := by
  rw [divXor, if_pos hlead, bitAt_xorWindow w d j hle]

theorem divXor_of_leading_zero {w : Vec} (d : Vec) (hlead : bitAt w 0 = false) :
    divXor w d = w := by
  rw [divXor, hlead, if_neg Bool.false_ne_true]

/-- Settles O22: record `i` is that of the closed form, whose dividend is still at least as long as
the divisor; the next dividend, or the remainder, is `drop1` of its `after` by definition. -/
theorem stepRecordsReplayTheDivision : Obligations.StepRecordsReplayTheDivision := by
  intro a d i r hd hr
  have hpos := one_le_length_of_head? hd
  obtain ⟨hi, rfl⟩ := (getElem?_remTrace_eq_some_iff hpos).mp hr
  have hlen := length_dividendAt a d i
  have hle : d.length ≤ (dividendAt a d i).length := by omega
  refine ⟨rfl, hlen, (length_divXor _ d).trans hlen, getElem?_zero_eq_bitAt (hpos.trans hle),
    bitAt_divXor_zero hd hle, divXor_of_leading_zero d, fun hlead => bitAt_divXor hlead hle,
    ?first, fun r' hr' => ?next, fun hlast => ?last⟩
  case first => rintro rfl; rfl
  case next =>
    obtain ⟨-, rfl⟩ := (getElem?_remTrace_eq_some_iff hpos).mp hr'
    rfl
  case last =>
    rw [length_remTrace a hpos] at hlast
    rw [remRaw_eq_dividendAt a hpos, hlast]
    rfl

/-! ### The three modes of the remainder (R102 to R104, R106) -/

/-- Settles O17: the remainder of polynomials, in as many bits as the divisor's degree. -/
theorem remFixedIsPolynomialRemainder : Obligations.RemFixedIsPolynomialRemainder :=
  fun a d hd => ⟨length_remFixed a d (one_le_length_of_head? hd), polyOf_remFixed a hd,
    remFixed_eq_zeros_iff_dvd a hd⟩

/-- A dividend shorter than the divisor meets no iteration (R104). -/
theorem remRaw_of_length_lt {a d : Vec} (h : a.length < d.length) : remRaw a d = a := by
  rw [remRaw, divLoop_stop d a _ _ h]

/-- A dividend of at least `ld - 1` bits leaves nothing to pad (R102). -/
theorem remFixed_eq_remRaw {a d : Vec} (hd : 1 ≤ d.length) (h : d.length - 1 ≤ a.length) :
    remFixed a d = remRaw a d := by
  rw [remFixed, length_remRaw a d hd, min_eq_right h, Nat.sub_self]
  rfl

/-- Trimming removes zeros and nothing else (R103). -/
theorem remRaw_eq_zeros_append_remTrim (a d : Vec) :
    ∃ k, remRaw a d = zeros k ++ remTrim a d := by
  have hzeros : (remRaw a d).takeWhile not = zeros ((remRaw a d).takeWhile not).length :=
    List.eq_replicate_iff.mpr ⟨rfl, fun b hb => by simpa using List.mem_takeWhile_imp hb⟩
  exact ⟨_, (List.takeWhile_append_dropWhile).symm.trans (congrArg (· ++ _) hzeros)⟩

/-- A trimmed remainder does not begin with 0 (R103). -/
theorem head?_remTrim_ne_false (a d : Vec) : (remTrim a d).head? ≠ some false := by
  intro h
  have hlead := List.head?_dropWhile_not not (remRaw a d)
  rw [remTrim] at h
  rw [h] at hlead
  cases hlead

theorem polyOf_remTrim (a : Vec) {d : Vec} (hd : d.head? = some true) :
    polyOf (remTrim a d) = polyOf a %ₘ polyOf d := by
  obtain ⟨k, hk⟩ := remRaw_eq_zeros_append_remTrim a d
  rw [← polyOf_remFixed a hd, remFixed, polyOf_zeros_append, hk, polyOf_zeros_append]

/-- A vector that does not begin with 0 and stands for the zero polynomial is empty. -/
theorem eq_nil_of_polyOf_eq_zero {v : Vec} (hzero : polyOf v = 0) (hlead : v.head? ≠ some false) :
    v = [] := by
  cases v with
  | nil => rfl
  | cons b v =>
    have hzeros := polyOf_eq_zero_iff.mp hzero
    exact absurd (by rw [hzeros]; rfl) hlead

/-- A zero remainder is empty in trimmed mode (R103). -/
theorem remTrim_of_dvd {a d : Vec} (hd : d.head? = some true) (h : polyOf d ∣ polyOf a) :
    remTrim a d = [] := by
  refine eq_nil_of_polyOf_eq_zero ?_ (head?_remTrim_ne_false a d)
  rw [polyOf_remTrim a hd, (Polynomial.modByMonic_eq_zero_iff_dvd (monic_polyOf hd)).mpr h]

/-- A multiple of the divisor, not shorter than a remainder, leaves zeros in all three modes. -/
theorem remainders_of_dvd {a d : Vec} (hd : d.head? = some true) (hle : d.length - 1 ≤ a.length)
    (h : polyOf d ∣ polyOf a) :
    remRaw a d = zeros (d.length - 1) ∧ remFixed a d = zeros (d.length - 1) ∧
      remTrim a d = [] := by
  have hfixed := (remFixed_eq_zeros_iff_dvd a hd).mpr h
  exact ⟨(remFixed_eq_remRaw (one_le_length_of_head? hd) hle).symm.trans hfixed, hfixed,
    remTrim_of_dvd hd h⟩

/-! ### REM.F and REM.T (R107 to R109) -/

/-- A REM whose B holds a divisor completes, in either mode. -/
theorem remWith_of_divisor (mode : Vec → Vec → Vec) (tr : Bool) {s : State}
    (h : s.b.head? = some true) :
    remWith mode tr s = complete (writeQ (mode s.a s.b) (emit tr (remTrace s.a s.b) s)) := by
  obtain ⟨-, hdone⟩ | ⟨hrefuse, -⟩ := remWith_cases mode tr s
  · exact hdone
  · exact absurd h hrefuse

/-- Without TR a REM whose B holds a divisor writes Q and ERR alone (R107, R108). -/
theorem remWith_untraced (mode : Vec → Vec → Vec) {s : State} (h : s.b.head? = some true) :
    remWith mode false s = { s with q := mode s.a s.b, err := 0 } := by
  rw [remWith_of_divisor mode false h]
  simp [complete, writeQ, emit]

/-- Settles O20: rows 1, 4 and 5 are multiples of the divisor, rows 2 and 3 meet no iteration, and a
command that passes its test completes with ERR = 0. -/
theorem degenerateInputsNeverFail : Obligations.DegenerateInputsNeverFail := by
  intro d hd
  have hshort : ∀ a : Vec, a.length < d.length →
      remRaw a d = a ∧ remFixed a d = zeros (d.length - 1 - a.length) ++ a := fun a ha =>
    ⟨remRaw_of_length_lt ha, by rw [remFixed, remRaw_of_length_lt ha]⟩
  refine ⟨fun n hn => ?zeros, fun a ha => ?shorter, ?empty, ?one, ?equal, fun tr s hs => ?accepted⟩
  case zeros =>
    have hzero : polyOf (zeros n) = 0 := polyOf_eq_zero_iff.mpr (by rw [length_zeros])
    exact remainders_of_dvd hd (by rw [length_zeros]; omega) (hzero ▸ dvd_zero _)
  case shorter =>
    obtain ⟨hraw, hfixed⟩ := hshort a ha
    obtain ⟨k, hk⟩ := remRaw_eq_zeros_append_remTrim a d
    exact ⟨hraw, hfixed, k, hraw.symm.trans hk, head?_remTrim_ne_false a d⟩
  case empty =>
    obtain ⟨hraw, hfixed⟩ := hshort [] (one_le_length_of_head? hd)
    exact ⟨hraw, hfixed.trans (List.append_nil _), remTrim_of_dvd hd (dvd_zero _)⟩
  case one =>
    rintro rfl a
    have hone : polyOf [true] = 1 := by simp [polyOf_cons]
    exact remainders_of_dvd hd (Nat.zero_le _) (hone ▸ one_dvd _)
  case equal => exact remainders_of_dvd hd (Nat.sub_le _ 1) dvd_rfl
  case accepted =>
    subst hs
    exact ⟨⟨_, congrArg Host.Outcome.next (remWith_of_divisor remFixed tr hd), rfl⟩,
      ⟨_, congrArg Host.Outcome.next (remWith_of_divisor remTrim tr hd), rfl⟩⟩

/-- Settles O18: REM.F behind the divisor check. -/
theorem remFWritesFixedRemainder : Obligations.RemFWritesFixedRemainder := by
  refine fun tr s => ⟨fun hd => ?divides, fun hd => ?refuses, fun ha hb => ?worked⟩
  case divides =>
    have hpos := one_le_length_of_head? hd
    exact ⟨congrArg Host.Outcome.next (remWith_of_divisor remFixed tr hd),
      length_remFixed s.a s.b hpos, polyOf_remFixed s.a hd, length_remTrace s.a hpos⟩
  case refuses => exact congrArg Host.Outcome.next (remWith_of_not_divisor remFixed tr hd)
  case worked =>
    have hq : remFixed s.a s.b = [false, true, false] := by rw [ha, hb]; decide
    rw [← hq]
    exact congrArg Host.Outcome.next (remWith_untraced remFixed (by rw [hb]; rfl))

/-- Settles O19: REM.T behind the divisor check. -/
theorem remTWritesTrimmedRemainder : Obligations.RemTWritesTrimmedRemainder := by
  refine fun tr s => ⟨fun hd => ?divides, fun hd => ?refuses, fun ha hb => ?worked⟩
  case divides =>
    refine ⟨remTrim s.a s.b, congrArg Host.Outcome.next (remWith_of_divisor remTrim tr hd),
      length_remTrim_le s.a s.b (one_le_length_of_head? hd), head?_remTrim_ne_false s.a s.b,
      polyOf_remTrim s.a hd, fun hdvd => congrArg List.length (remTrim_of_dvd hd hdvd),
      fun hlt => ?_⟩
    obtain ⟨k, hk⟩ := remRaw_eq_zeros_append_remTrim s.a s.b
    exact ⟨k, (remRaw_of_length_lt hlt).symm.trans hk⟩
  case refuses => exact congrArg Host.Outcome.next (remWith_of_not_divisor remTrim tr hd)
  case worked =>
    have hq : remTrim s.a s.b = [true, false] := by rw [ha, hb]; decide
    rw [← hq]
    exact congrArg Host.Outcome.next (remWith_untraced remTrim (by rw [hb]; rfl))

/-! ### The trace port (R111 to R113) -/

theorem exec_of_raised_none {i : Instr} {s : State} (h : raised i s = none) :
    exec i s = .next (complete (effect i s)) := by
  rw [exec_eq, h]
  rfl

theorem exec_of_raised_some {i : Instr} {s : State} {e : ErrorKind} (h : raised i s = some e) :
    exec i s = .next (raise e s) := by
  rw [exec_eq, h]
  rfl

/-- TR decides only what is emitted: the tests do not read it, and without it the effect is the same
less the records (R111). -/
theorem raised_and_effect_untraced {x : Bool → Instr}
    (hx : x = .remF ∨ x = .remT ∨ x = .enc ∨ x = .decD ∨ x = .decL) (s : State) :
    raised (x false) s = raised (x true) s ∧
      effect (x false) s = { effect (x true) s with trace := s.trace } := by
  obtain rfl | rfl | rfl | rfl | rfl := hx <;>
    exact ⟨rfl, by simp [effect, emit, writeQ, writeDecoded]⟩

/-- Settles O23: the same refusal, or the same effect less the records. -/
theorem tracingChangesNoRegister : Obligations.TracingChangesNoRegister := by
  intro x s t hx ht
  obtain ⟨hraised, heffect⟩ := raised_and_effect_untraced hx s
  obtain ⟨e, he, rfl⟩ | ⟨hnone, rfl⟩ := exec_cases ht
  · exact exec_of_raised_some (hraised.trans he)
  · rw [exec_of_raised_none (hraised.trans hnone), heffect]
    rfl

/-- The core's own divisions make four iterations: a word of 7 bits by G (R105). -/
theorem length_remTrace_hardware {w : Vec} (hw : w.length = 7) :
    (remTrace w Config.hardware.g).length = 4 := by
  rw [length_remTrace w (by decide), hw]
  rfl

/-- Settles O24: a refusal emits nothing, a completed command what `emitted` says. -/
theorem recordsEmittedByCommand : Obligations.RecordsEmittedByCommand := by
  intro i s t h
  obtain ⟨e, -, rfl⟩ | ⟨hnone, rfl⟩ := exec_cases h
  · refine ⟨[], (List.append_nil _).symm, fun _ => rfl, ?_⟩
    have herr : (raise e s).err ≠ 0 := errCode_ne_zero e
    split <;> simp only [herr, false_imp_iff]
  · refine ⟨emitted i s, effect_trace i s, fun herr => absurd rfl herr, ?_⟩
    cases i with
    | remF tr => cases tr <;> simp [emitted]
    | remT tr => cases tr <;> simp [emitted]
    | enc tr =>
      obtain ⟨-, -, hlen⟩ := codecCheck_eq_none_iff.mp hnone
      cases tr
      · rfl
      · exact fun _ => ⟨rfl, length_remTrace_hardware (by rw [length_shifted, hlen])⟩
    | decD tr =>
      obtain ⟨-, -, hlen⟩ := codecCheck_eq_none_iff.mp hnone
      cases tr
      · rfl
      · exact fun _ => ⟨rfl, length_remTrace_hardware hlen⟩
    | _ => rfl

/-- Settles O14, one field of the concatenation after the other. -/
theorem packedRecordFields : Obligations.PackedRecordFields := by
  intro r hoffset _ hbefore hafter
  unfold packRecord
  refine ⟨?offset, ?lead, ?len, ?before, ?after⟩
  case offset =>
    have hnum : (BitVec.ofNat 4 r.offset).toNat = r.offset := Nat.mod_eq_of_lt (by omega)
    refine Eq.trans (congrArg BitVec.toNat ?_) hnum
    exact (extractLsb'_append_add _ _ 22 4).trans <| (extractLsb'_append_add _ _ 6 4).trans <|
      (extractLsb'_append_add _ _ 1 4).trans BitVec.extractLsb'_append_eq_left
  case lead =>
    exact (getLsbD_append_add _ _ 21).trans <| (getLsbD_append_add _ _ 5).trans <|
      (getLsbD_append_add _ _ 0).trans <| getLsbD_append_ofBool _ _
  case len =>
    refine Eq.trans (congrArg BitVec.toNat ?_) (toNat_length_of_fits hbefore)
    exact (extractLsb'_append_add _ _ 16 5).trans <| (extractLsb'_append_add _ _ 0 5).trans
      BitVec.extractLsb'_append_eq_right
  case before =>
    refine Eq.trans (congrArg BitVec.toNat ?_) (toNat_uint_of_fits hbefore)
    exact (extractLsb'_append_add _ _ 0 16).trans BitVec.extractLsb'_append_eq_right
  case after =>
    refine Eq.trans (congrArg BitVec.toNat ?_) (toNat_uint_of_fits (hafter.trans_le hbefore))
    exact BitVec.extractLsb'_append_eq_right

end Sys2Proof.Machine

/-! ## The encoder (42_encoder.md R120 to R123) -/

namespace Sys2Proof.Machine

/-! ### Parity by remainder (R120) -/

theorem xorWindow_zeros (v : Vec) : xorWindow (zeros v.length) v = v := by
  induction v with
  | nil => rfl
  | cons b v ih =>
    rw [List.length_cons, zeros, List.replicate_succ, xorWindow, Bool.false_xor]
    exact congrArg (b :: ·) ih

/-- The three places that receive the parity hold zeros, so the xor of R120 puts it there. -/
theorem encodeWord_eq {g data : Vec} (hg : g.length = 4) (hdata : data.length = 4) :
    encodeWord g data = data ++ remFixed (shifted data) g := by
  have hparity : (remFixed (shifted data) g).length = Config.parityLen := by
    rw [length_remFixed _ g (by omega), hg]
    rfl
  have htake : (shifted data).take Config.dataLen = data := List.take_left' hdata
  have hdrop : (shifted data).drop Config.dataLen = zeros Config.parityLen :=
    List.drop_left' hdata
  rw [encodeWord, htake, hdrop, ← hparity, xorWindow_zeros]

/-- Settles O26: the codeword in closed form, and its length. -/
theorem codewordIsDataThenParity : Obligations.CodewordIsDataThenParity :=
  fun g data hg _ hdata => ⟨encodeWord_eq hg hdata, by rw [length_encodeWord, hdata]⟩

/-! ### Codewords and multiples of the generator (R121, R123) -/

/-- The leading element is the coefficient of degree `len - 1` (R13). -/
theorem coeff_polyOf_cons (b : Bit) (v : Vec) :
    (polyOf (b :: v)).coeff v.length = if b then 1 else 0 := by
  rw [polyOf_cons, Polynomial.coeff_add,
    Polynomial.coeff_eq_zero_of_degree_lt (degree_polyOf_lt v), add_zero]
  cases b <;> simp

theorem bit_eq_of_coeff_eq : ∀ b c : Bit,
    (if b then (1 : ZMod 2) else 0) = (if c then 1 else 0) → b = c := by decide

/-- Length and polynomial determine a vector. -/
theorem eq_of_polyOf_eq : ∀ {v w : Vec}, v.length = w.length → polyOf v = polyOf w → v = w
  | [], [], _, _ => rfl
  | b :: v, c :: w, hlength, h => by
    have hlen : v.length = w.length := Nat.succ.inj hlength
    have hlead := coeff_polyOf_cons c w
    rw [← h, ← hlen, coeff_polyOf_cons] at hlead
    obtain rfl : b = c := bit_eq_of_coeff_eq b c hlead
    rw [polyOf_cons, polyOf_cons, hlen] at h
    rw [eq_of_polyOf_eq hlen (add_left_cancel h)]

theorem polyOf_inj {v w : Vec} (hlen : v.length = w.length) : polyOf v = polyOf w ↔ v = w :=
  ⟨eq_of_polyOf_eq hlen, congrArg polyOf⟩

/-- The parity that completes data to a multiple of the divisor is the remainder of the shifted
data, and no other. -/
theorem remFixed_append_zeros_eq_iff (data : Vec) {w d : Vec} (hd : d.head? = some true)
    (hw : w.length = d.length - 1) :
    remFixed (data ++ zeros w.length) d = w ↔ polyOf d ∣ polyOf (data ++ w) := by
  have hpos := one_le_length_of_head? hd
  have hzero : polyOf (zeros w.length) = 0 := polyOf_eq_zero_iff.mpr (by rw [length_zeros])
  have hshift : polyOf (data ++ zeros w.length) = polyOf data * Polynomial.X ^ w.length := by
    rw [polyOf_append, hzero, add_zero, length_zeros]
  rw [← polyOf_inj ((length_remFixed _ d hpos).trans hw.symm), polyOf_remFixed _ hd, hshift,
    ← Polynomial.modByMonic_eq_zero_iff_dvd (monic_polyOf hd), polyOf_append,
    Polynomial.add_modByMonic, polyOf_modByMonic_of_length_lt hd (by omega), CharTwo.add_eq_zero]

/-- A 7-bit word is a valid codeword exactly when its last three bits are the parity of its first
four. -/
theorem isCodeword_append_iff {data w : Vec} (hdata : data.length = 4) (hw : w.length = 3) :
    isCodeword (data ++ w) ↔ encodeWord Config.hardware.g data = data ++ w := by
  have hlen : (data ++ w).length = 7 := by rw [List.length_append, hdata, hw]
  have hparity := remFixed_append_zeros_eq_iff data (d := Config.hardware.g) rfl hw
  rw [isCodeword_iff_dvd, and_iff_right hlen, ← hparity, hw, encodeWord_eq rfl hdata,
    List.append_cancel_left_eq]
  rfl

theorem isCodeword_encodeWord {data : Vec} (hdata : data.length = 4) :
    isCodeword (encodeWord Config.hardware.g data) := by
  have hparity : (remFixed (shifted data) Config.hardware.g).length = 3 :=
    length_remFixed _ _ (by decide)
  have hword := encodeWord_eq (g := Config.hardware.g) rfl hdata
  rw [hword]
  exact (isCodeword_append_iff hdata hparity).mpr hword

/-- Settles O27: the table by evaluation on the 16 data words; the equivalence because a word is its
first four bits and the parity that a zero remainder forces. -/
theorem sixteenCodewords : Obligations.SixteenCodewords := by
  refine ⟨by decide, by decide, fun v hv => ⟨fun hrem => ?_, ?_⟩⟩
  · have hdata : (v.take 4).length = 4 := by rw [List.length_take, hv]; rfl
    have hparity : (v.drop 4).length = 3 := by rw [List.length_drop, hv]
    have hcode : isCodeword (v.take 4 ++ v.drop 4) := by
      rw [List.take_append_drop]
      exact ⟨hv, hrem⟩
    have hword := (isCodeword_append_iff hdata hparity).mp hcode
    exact ⟨v.take 4, hdata, by rw [hword, List.take_append_drop]⟩
  · rintro ⟨data, hdata, rfl⟩
    exact (isCodeword_encodeWord hdata).2

/-! ### ENC (R121, R122) -/

section
variable {need : Nat} {s : State}

theorem codecCheck_of_fatal (hfatal : s.fatal = true) :
    codecCheck need s = some .syndromeTableConstructionFault := by
  simp [codecCheck, hfatal]

theorem codecCheck_of_not_ready (hfatal : s.fatal = false) (hready : s.ready = false) :
    codecCheck need s = some .notInitialised := by
  simp [codecCheck, hfatal, hready]

theorem codecCheck_of_length_ne (hfatal : s.fatal = false) (hready : s.ready = true)
    (hlen : s.a.length ≠ need) : codecCheck need s = some .invalidInputLength := by
  simp [codecCheck, hfatal, hready, hlen]

/-- Past its tests ENC completes. -/
theorem exec_enc_of_length_eq (tr : Bool) (hfatal : s.fatal = false) (hready : s.ready = true)
    (hlen : s.a.length = 4) : exec (.enc tr) s = .next (complete (effect (.enc tr) s)) :=
  exec_of_raised_none (codecCheck_eq_none_iff.mpr ⟨hfatal, hready, hlen⟩)

end

/-- Settles O25, test by test in the order of R122. -/
theorem encWritesSystematicCodeword : Obligations.EncWritesSystematicCodeword := by
  refine fun tr s => ⟨fun hfatal => ?fatal, fun hfatal hready => ?notReady,
    fun hfatal hready hlen => ?length, fun hfatal hready hlen => ?encodes,
    fun hfatal hready ha => ?worked⟩
  case fatal => exact exec_of_raised_some (i := .enc tr) (codecCheck_of_fatal hfatal)
  case notReady => exact exec_of_raised_some (i := .enc tr) (codecCheck_of_not_ready hfatal hready)
  case length =>
    exact exec_of_raised_some (i := .enc tr) (codecCheck_of_length_ne hfatal hready hlen)
  case encodes =>
    obtain ⟨hseven, hrem⟩ := isCodeword_encodeWord hlen
    refine ⟨encodeWord Config.hardware.g s.a, exec_enc_of_length_eq tr hfatal hready hlen, hseven,
      ?_, hrem, length_remTrace_hardware (by rw [List.length_append, hlen]; rfl)⟩
    rw [encodeWord_eq rfl hlen]
    exact List.take_left' hlen
  case worked =>
    have hlen : s.a.length = 4 := by rw [ha]; rfl
    have hq : [true, false, true, true, false, false, false] =
        encodeWord Config.hardware.g s.a := by rw [ha]; decide
    rw [exec_enc_of_length_eq false hfatal hready hlen, hq]
    simp [effect, complete, writeQ, emit]

end Sys2Proof.Machine

/-! ## The table builder and INIT (43_table_init.md R130 to R139) -/

namespace Sys2Proof.Machine

/-! ### The builder, position by position (R131) -/

/-- Under a generator of length 4 no bit of the remainder is lost in a direct syndrome (R145). -/
theorem dsyn_eq_iff {g v : Vec} {k : BitVec 3} (hg : g.length = 4) :
    dsyn g v = k ↔ uint (remFixed v g) = k.toNat := by
  have hlt : uint (remFixed v g) < 2 ^ 3 := by
    simpa [length_remFixed v g (by omega), hg] using uint_lt_two_pow (remFixed v g)
  rw [dsyn, ← BitVec.toNat_inj, BitVec.toNat_ofNat, Nat.mod_eq_of_lt hlt]

/-- The builder's table after its first `n` positions. -/
def tableAfter (g : Vec) (n : Nat) : Memory := (List.range n).foldl (recordPosition g) []

theorem buildTable_eq_tableAfter (g : Vec) : buildTable g = tableAfter g 7 := rfl

theorem memRead_tableAfter_succ (g : Vec) (n : Nat) (k : BitVec 3) :
    memRead (tableAfter g (n + 1)) k =
      if dsyn g (unitVec n) = k then ⟨true, BitVec.ofNat 3 n⟩ else memRead (tableAfter g n) k := by
  rw [tableAfter, List.range_succ, List.foldl_append]
  exact memRead_memWrite _ _ _ _

/-- Positions with another syndrome leave the entry at an address alone. -/
theorem memRead_tableAfter_of_forall_ne {g : Vec} {k : BitVec 3} {m n : Nat} (hmn : m ≤ n)
    (h : ∀ p, m ≤ p → p < n → dsyn g (unitVec p) ≠ k) :
    memRead (tableAfter g n) k = memRead (tableAfter g m) k := by
  induction n, hmn using Nat.le_induction with
  | base => rfl
  | succ n hmn ih =>
    rw [memRead_tableAfter_succ, if_neg (h n hmn n.lt_succ_self)]
    exact ih fun p hp hlt => h p hp (hlt.trans n.lt_succ_self)

theorem memRead_buildTable_of_forall_ne {g : Vec} {k : BitVec 3}
    (h : ∀ p, p < 7 → dsyn g (unitVec p) ≠ k) : memRead (buildTable g) k = Entry.invalid :=
  (memRead_tableAfter_of_forall_ne (Nat.zero_le 7) fun p _ => h p).trans (memRead_nil k)

theorem memRead_buildTable_of_last {g : Vec} {k : BitVec 3} {p : Nat} (hp : p < 7)
    (hk : dsyn g (unitVec p) = k) (hlast : ∀ p', p < p' → p' < 7 → dsyn g (unitVec p') ≠ k) :
    memRead (buildTable g) k = ⟨true, BitVec.ofNat 3 p⟩ := by
  rw [buildTable_eq_tableAfter, memRead_tableAfter_of_forall_ne hp hlast, memRead_tableAfter_succ,
    if_pos hk]

theorem exists_unitVec_of_valid {g : Vec} {k : BitVec 3}
    (h : (memRead (buildTable g) k).v = true) : ∃ p, p < 7 ∧ dsyn g (unitVec p) = k := by
  by_contra! hnone
  rw [memRead_buildTable_of_forall_ne hnone] at h
  cases h

/-- The keys of a table (R132), as the set that the statements about it count. -/
def keySet (t : Memory) : Finset (Fin 8) :=
  Finset.univ.filter fun k => (memRead t (BitVec.ofFin k)).v = true

/-- Each key is the syndrome of a position, and of two positions with one syndrome the larger is
enough, so six positions account for every key. -/
theorem card_keySet_buildTable_lt {g : Vec} {p p' : Nat} (hlt : p < p') (hp' : p' < 7)
    (hsame : dsyn g (unitVec p) = dsyn g (unitVec p')) : (keySet (buildTable g)).card < 7 := by
  have hsubset : keySet (buildTable g) ⊆
      ((Finset.range 7).erase p).image fun q => (dsyn g (unitVec q)).toFin := by
    intro k hk
    obtain ⟨q, hq, hqk⟩ := exists_unitVec_of_valid (Finset.mem_filter.mp hk).2
    rw [Finset.mem_image]
    by_cases hqp : q = p
    · exact ⟨p', by simp [hlt.ne', hp'], by rw [← hsame, ← hqp, hqk]⟩
    · exact ⟨q, by simp [hqp, hq], by rw [hqk]⟩
  calc (keySet (buildTable g)).card
      ≤ ((Finset.range 7).erase p).card := (Finset.card_le_card hsubset).trans Finset.card_image_le
    _ < 7 := by simp [Finset.card_erase_of_mem, hlt.trans hp']

/-- Settles O30: entry by entry from the builder's loop, and by counting the keys. -/
theorem builderKeepsLastPosition : Obligations.BuilderKeepsLastPosition := by
  refine ⟨fun g k hg => ?_, fun g p p' hg hlt hp' hsame => ?_⟩
  · simp only [ne_eq, ← dsyn_eq_iff hg]
    exact ⟨memRead_buildTable_of_forall_ne, fun p => memRead_buildTable_of_last⟩
  · exact card_keySet_buildTable_lt hlt hp' (congrArg (BitVec.ofNat 3) hsame)

/-! ### The construction check (R132) -/

theorem card_keySet (t : Memory) : (keySet t).card = (tableKeys t).length := by
  have haddresses : tabAddresses = (List.finRange 8).map BitVec.ofFin := by decide
  rw [tableKeys, haddresses, List.filter_map, List.length_map, keySet, Finset.card_def]
  simp [Fin.univ_def, Function.comp_def]

theorem mem_tableValues_iff {t : Memory} {p : BitVec 3} :
    p ∈ tableValues t ↔ ∃ k, (memRead t k).v = true ∧ (memRead t k).pos = p := by
  simp [tableValues, tableKeys, mem_tabAddresses]

theorem ne_seven_iff_toNat_le_six : ∀ p : BitVec 3, p ≠ 7 ↔ p.toNat ≤ 6 := by decide

theorem tableOk_iff (t : Memory) : tableOk t = true ↔ (keySet t).card = 7 ∧
    ∀ p : BitVec 3,
      (∃ k : BitVec 3, (memRead t k).v = true ∧ (memRead t k).pos = p) ↔ p.toNat ≤ 6 := by
  simp only [tableOk, Bool.and_eq_true, beq_iff_eq, List.all_eq_true, mem_tabAddresses,
    forall_const, decide_eq_decide, card_keySet, mem_tableValues_iff, ne_seven_iff_toNat_le_six]

section
open Polynomial

theorem polyOf_zeros (n : Nat) : polyOf (zeros n) = 0 :=
  polyOf_eq_zero_iff.mpr (by rw [length_zeros])

theorem polyOf_zeros_set {n p : Nat} (h : p < n) :
    polyOf ((zeros n).set p true) = X ^ (n - 1 - p) := by
  induction n generalizing p with
  | zero => cases h
  | succ n ih =>
    rw [zeros, List.replicate_succ]
    cases p with
    | zero =>
      change polyOf (true :: zeros n) = _
      simp [polyOf_cons, polyOf_zeros]
    | succ p =>
      have hdegree : n + 1 - 1 - (p + 1) = n - 1 - p := by omega
      rw [List.set_cons_succ, polyOf_false_cons, hdegree]
      exact ih (Nat.lt_of_succ_lt_succ h)

/-- R130: as a polynomial `unit(p)` is x^(6-p). -/
theorem polyOf_unitVec {p : Nat} (h : p < 7) : polyOf (unitVec p) = X ^ (6 - p) :=
  polyOf_zeros_set h

theorem uint_eq_zero_iff {v : Vec} : uint v = 0 ↔ v = zeros v.length := by
  induction v with
  | nil => simp [uint, zeros]
  | cons b v ih => cases b <;> simp [uint, zeros, List.replicate_succ, ih]

/-- A direct syndrome is 0 exactly on the multiples of the generator (R106). -/
theorem dsyn_eq_zero_iff_dvd {g : Vec} (hg : g.length = 4) (hd : g.head? = some true) (v : Vec) :
    dsyn g v = 0 ↔ polyOf g ∣ polyOf v := by
  rw [← remFixed_eq_zeros_iff_dvd v hd, ← length_remFixed v g (by omega), ← uint_eq_zero_iff]
  exact dsyn_eq_iff hg

/-- A generator that divides a power of x is a power of x itself, and x^3 by its degree (R132). -/
theorem polyOf_eq_X_pow_three_of_dvd {g : Vec} (hg : g.length = 4) (hd : g.head? = some true)
    {n : Nat} (h : polyOf g ∣ X ^ n) : polyOf g = X ^ 3 := by
  obtain ⟨i, -, hassoc⟩ := (dvd_prime_pow prime_X n).mp h
  have hpow : polyOf g = X ^ i := eq_of_monic_of_associated (monic_polyOf hd) (monic_X_pow i) hassoc
  have hdegree := degree_polyOf hd
  rw [hpow, degree_X_pow, hg] at hdegree
  rw [hpow, Nat.cast_inj.mp hdegree]

/-- Under G = x^3 the units x^6 and x^5 share the syndrome 0, and the count of R132 fails. -/
theorem card_keySet_buildTable_of_X_pow_three {g : Vec} (hg : g.length = 4)
    (hd : g.head? = some true) (h : polyOf g = X ^ 3) : (keySet (buildTable g)).card < 7 := by
  have hzero : ∀ p, p ≤ 3 → dsyn g (unitVec p) = 0 := by
    intro p hp
    rw [dsyn_eq_zero_iff_dvd hg hd, h, polyOf_unitVec (by omega)]
    exact pow_dvd_pow X (by omega)
  exact card_keySet_buildTable_lt zero_lt_one (by decide)
    ((hzero 0 (by decide)).trans (hzero 1 (by decide)).symm)

end

theorem head?_eq_some_true {g : Vec} (h : bitAt g 0 = true) : g.head? = some true := by
  cases g with
  | nil => cases h
  | cons b g => exact congrArg some h

/-- Settles O31: the check restated, and for the key 0 the spec's own derivation at R132. -/
theorem tableCheckIsBijection : Obligations.TableCheckIsBijection := by
  refine ⟨tableOk_iff, fun g hg hlead hok => ?_⟩
  have hd := head?_eq_some_true hlead
  by_contra hkey
  obtain ⟨p, hp, hsyn⟩ := exists_unitVec_of_valid (eq_true_of_ne_false hkey)
  rw [dsyn_eq_zero_iff_dvd hg hd, polyOf_unitVec hp] at hsyn
  have hfew := card_keySet_buildTable_of_X_pow_three hg hd (polyOf_eq_X_pow_three_of_dvd hg hd hsyn)
  exact hfew.ne ((tableOk_iff _).mp hok).1

/-! ### INIT (R133 to R139) -/

theorem initStep_of_raised {s : State} {e : ErrorKind} (h : initCheck s = some e) (c : Config) :
    initStep c s = raise e s := by
  rw [initStep, h]

section
variable {s : State}

theorem initCheck_of_fatal (hfatal : s.fatal = true) :
    initCheck s = some .syndromeTableConstructionFault := by
  simp [initCheck, hfatal]

theorem initCheck_of_ready (hfatal : s.fatal = false) (hready : s.ready = true) :
    initCheck s = some .alreadyInitialised := by
  simp [initCheck, hfatal, hready]

/-- A table that fails the check has the three effects of R134. -/
theorem initStep_of_not_tableOk {c : Config} (hnone : initCheck s = none)
    (hfault : tableOk (buildTable c.g) = false) :
    initStep c s =
      { s with tab := fillTable (fun _ => Entry.invalid) s.tab, fatal := true, err := 3 } := by
  simp [initStep, hnone, hfault, raise, errCode, markFatal, eraseTable]

/-- A table that passes it is copied, and the reference taken (R135, R137). -/
theorem initStep_of_tableOk {c : Config} (hnone : initCheck s = none)
    (hok : tableOk (buildTable c.g) = true) :
    initStep c s =
      { s with
        tab := fillTable (memRead (buildTable c.g)) s.tab, lref := reference c.lt, ready := true,
        err := 0 } := by
  simp [initStep, hnone, hok, complete, markReady, copyTable]

/-- On this hardware the construction completes (R139), with the table of R133 and the reference 6
of R135. -/
theorem exec_init_constructs (hfatal : s.fatal = false) (hready : s.ready = false) :
    ∃ m, exec .init s = .next { s with tab := m, lref := 6, ready := true, err := 0 } ∧
      ∀ k, memRead m k = tableImage k := by
  have hstep := initStep_of_tableOk (initCheck_eq_none_iff.mpr ⟨hfatal, hready⟩) tableOk_hardware
  rw [reference_hardware] at hstep
  refine ⟨_, congrArg Host.Outcome.next hstep, fun k => ?_⟩
  rw [memRead_fillTable, memRead_buildTable_hardware]

end

/-- Settles O32, by the four ends of INIT in the order of R137. -/
theorem initUnderAnyConstants : Obligations.InitUnderAnyConstants := by
  refine ⟨fun c s => ⟨fun hfatal => ?fatal, fun hfatal hready => ?ready,
    fun hfatal hready hfault => ?fault, fun hfatal hready hok => ?constructed⟩,
    exec_init_constructs rfl rfl⟩
  case fatal => exact initStep_of_raised (initCheck_of_fatal hfatal) c
  case ready => exact initStep_of_raised (initCheck_of_ready hfatal hready) c
  case fault =>
    exact ⟨_, initStep_of_not_tableOk (initCheck_eq_none_iff.mpr ⟨hfatal, hready⟩) hfault,
      memRead_fillTable _ _⟩
  case constructed =>
    exact ⟨_, initStep_of_tableOk (initCheck_eq_none_iff.mpr ⟨hfatal, hready⟩) hok,
      memRead_fillTable _ _⟩

/-- Settles O33: the completed construction, and the two refusals. -/
theorem initBuildsOnce : Obligations.InitBuildsOnce := fun _ =>
  ⟨exec_init_constructs,
    fun hfatal hready => exec_of_raised_some (i := .init) (initCheck_of_ready hfatal hready),
    fun hfatal => exec_of_raised_some (i := .init) (initCheck_of_fatal hfatal)⟩

end Sys2Proof.Machine

/-! ## The direct-division decoder (44_decode_direct.md R145 to R150) -/

namespace Sys2Proof.Machine

/-! ### Each transition of `decodeDirect_cases`, picked by the syndrome and the entry (R146) -/

section
variable {g w : Vec} {tab : Memory}

theorem decodeDirect_of_zero (h : dsyn g w = 0) : decodeDirect g tab w = ⟨w, .noError, 0⟩ := by
  simpa only [h, ne_eq, not_true, true_and, false_and, or_false] using decodeDirect_cases g tab w

theorem decodeDirect_of_valid (h : dsyn g w ≠ 0) (hv : (memRead tab (dsyn g w)).v = true) :
    decodeDirect g tab w =
      ⟨flipAt w (memRead tab (dsyn g w)).pos.toNat, .corrected (memRead tab (dsyn g w)).pos,
        (dsyn g w).setWidth 4⟩ := by
  simpa only [ne_eq, h, hv, not_false_eq_true, true_and, false_and, false_or, or_false,
    reduceCtorEq] using decodeDirect_cases g tab w

theorem decodeDirect_of_invalid (h : dsyn g w ≠ 0) (hv : (memRead tab (dsyn g w)).v = false) :
    decodeDirect g tab w = ⟨w, .uncorrectable, (dsyn g w).setWidth 4⟩ := by
  simpa only [ne_eq, h, hv, not_false_eq_true, true_and, false_and, false_or, or_false,
    reduceCtorEq] using decodeDirect_cases g tab w

end

/-- Whatever the transition, SYN is the direct syndrome (R28). -/
theorem syndrome_decodeDirect (g : Vec) (tab : Memory) (w : Vec) :
    (decodeDirect g tab w).syndrome = (dsyn g w).setWidth 4 := by
  obtain ⟨hzero, hd⟩ | ⟨-, -, hd⟩ | ⟨-, -, hd⟩ := decodeDirect_cases g tab w <;> rw [hd]
  rw [hzero]
  rfl

/-! ### DEC.D (R147) -/

/-- Past its tests DEC.D completes. -/
theorem exec_decD_of_length_eq (tr : Bool) {s : State} (hfatal : s.fatal = false)
    (hready : s.ready = true) (hlen : s.a.length = 7) :
    exec (.decD tr) s = .next (complete (effect (.decD tr) s)) :=
  exec_of_raised_none (codecCheck_eq_none_iff.mpr ⟨hfatal, hready, hlen⟩)

/-- Settles O34: the tests in the order of R147, then the transitions of R146 one by one. -/
theorem decDDecodesByTable : Obligations.DecDDecodesByTable := by
  refine fun tr s => ⟨fun hfatal => ?fatal, fun hfatal hready => ?notReady,
    fun hfatal hready hlen => ?length, fun hfatal hready hlen => ?decodes,
    fun hfatal hready ha hentry => ?worked⟩
  case fatal => exact exec_of_raised_some (i := .decD tr) (codecCheck_of_fatal hfatal)
  case notReady => exact exec_of_raised_some (i := .decD tr) (codecCheck_of_not_ready hfatal hready)
  case length =>
    exact exec_of_raised_some (i := .decD tr) (codecCheck_of_length_ne hfatal hready hlen)
  case decodes =>
    refine ⟨dsyn Config.hardware.g s.a, (decodeDirect Config.hardware.g s.tab s.a).word,
      verdictState (decodeDirect Config.hardware.g s.tab s.a).verdict,
      verdictPos (decodeDirect Config.hardware.g s.tab s.a).verdict, ?completes,
      ((dsyn_eq_iff rfl).mp rfl).symm, (length_decodeDirect _ _ _).trans hlen,
      fun hzero => ?noError, fun hne hvalid _ => ?corrected, fun hne hinvalid => ?uncorrectable,
      length_remTrace_hardware hlen⟩
    case completes =>
      rw [exec_decD_of_length_eq tr hfatal hready hlen, ← syndrome_decodeDirect]
      rfl
    case noError =>
      rw [decodeDirect_of_zero hzero]
      exact ⟨rfl, rfl, rfl⟩
    case corrected =>
      rw [decodeDirect_of_valid hne hvalid]
      exact ⟨fun j hj => bitAt_flipAt _ _ _ (hj.trans_eq hlen.symm), rfl, rfl⟩
    case uncorrectable =>
      rw [decodeDirect_of_invalid hne hinvalid]
      exact ⟨rfl, rfl, rfl⟩
  case worked =>
    have hlen : s.a.length = 7 := by rw [ha]; rfl
    have hsyn : dsyn Config.hardware.g s.a = 2 := by rw [ha]; decide
    have hd : decodeDirect Config.hardware.g s.tab s.a =
        ⟨[true, false, true, true, false, false, false], .corrected 5, 2⟩ := by
      rw [decodeDirect_of_valid (by rw [hsyn]; decide) (by rw [hsyn, hentry]), hsyn, hentry, ha]
      rfl
    rw [exec_decD_of_length_eq false hfatal hready hlen, effect, hd]
    simp [complete, writeDecoded, emit, verdictState, verdictPos]

/-! ### A flip as a polynomial, and words at distance at most 1 (R13, R15) -/

/-- The vector with one coefficient changed. -/
theorem polyOf_flipAt {v : Vec} {p : Nat} (h : p < v.length) :
    polyOf (flipAt v p) = polyOf v + Polynomial.X ^ (v.length - 1 - p) := by
  induction v generalizing p with
  | nil => cases h
  | cons b v ih =>
    cases p with
    | zero =>
      change polyOf ((!b) :: v) = polyOf (b :: v) + Polynomial.X ^ v.length
      rw [← Bool.xor_true, polyOf_cons, polyOf_cons, ite_xor_eq_add, if_pos rfl]
      ring
    | succ p =>
      have hdegree : (b :: v).length - 1 - (p + 1) = v.length - 1 - p := by
        rw [List.length_cons]; omega
      change polyOf (b :: flipAt v p) = _
      rw [polyOf_cons, polyOf_cons, length_flipAt, ih (Nat.lt_of_succ_lt_succ h), hdegree,
        add_assoc]

theorem flipAt_flipAt_same (v : Vec) (p : Nat) : flipAt (flipAt v p) p = v := by
  rw [flipAt, flipAt, List.modify_modify_eq, Bool.involutive_not.comp_self, List.modify_id]

theorem distance_cons (x y : Bit) (v w : Vec) :
    distance (x :: v) (y :: w) = distance v w + (x ^^ y).toNat := by
  cases h : x ^^ y <;> simp [distance, h]

theorem distance_eq_zero_iff : ∀ {v w : Vec}, v.length = w.length → (distance v w = 0 ↔ w = v)
  | [], [], _ => by simp [distance]
  | x :: v, y :: w, h => by
    rw [distance_cons, Nat.add_eq_zero_iff, distance_eq_zero_iff (Nat.succ.inj h), List.cons.injEq]
    cases x <;> cases y <;> simp

/-- At distance at most 1 lie the word itself and its flips. -/
theorem distance_le_one_iff : ∀ {v w : Vec}, v.length = w.length →
    (distance v w ≤ 1 ↔ w = v ∨ ∃ p < v.length, w = flipAt v p)
  | [], [], _ => by simp [distance]
  | x :: v, y :: w, h => by
    have hlen : v.length = w.length := Nat.succ.inj h
    have hfirst : flipAt (x :: v) 0 = (!x) :: v := rfl
    have hlater : ∀ p, flipAt (x :: v) (p + 1) = x :: flipAt v p := fun _ => rfl
    simp only [distance_cons, List.length_cons, Nat.exists_lt_succ_left, hfirst, hlater,
      List.cons.injEq]
    by_cases hxy : y = x
    · simp [hxy, distance_le_one_iff hlen]
    · obtain rfl : y = !x := Bool.eq_not.mpr hxy
      simp [distance_eq_zero_iff hlen]

/-- Two different flips are not undone by one. -/
theorem not_distance_flipAt_flipAt_le_one {c : Vec} {p p' : Nat} (hp : p < c.length)
    (hp' : p' < c.length) (hne : p ≠ p') : ¬ distance (flipAt (flipAt c p) p') c ≤ 1 := by
  have hbit : ∀ i < c.length, bitAt (flipAt (flipAt c p) p') i =
      ((bitAt c i ^^ decide (i = p)) ^^ decide (i = p')) := fun i hi => by
    rw [bitAt_flipAt _ _ _ (by simpa using hi), bitAt_flipAt _ _ _ hi]
  rw [distance_le_one_iff (by simp)]
  rintro (hsame | ⟨j, -, hflip⟩)
  · have := hbit p hp
    simp [← hsame, hne] at this
  · have hundone : ∀ i < c.length, (i = p ∨ i = p') → i = j := fun i hi hflipped => by
      have := congrArg (bitAt · i) hflip
      rw [bitAt_flipAt _ _ _ (by simpa using hi), hbit i hi] at this
      by_contra hij
      obtain rfl | rfl := hflipped
      · simp [hne, hij] at this
      · simp [hne.symm, hij] at this
    exact hne ((hundone p hp (.inl rfl)).trans (hundone p' hp' (.inr rfl)).symm)

/-! ### The code is perfect (R149) -/

/-- Two words have one syndrome exactly when the generator divides their sum. -/
theorem dsyn_eq_dsyn_iff_dvd {g : Vec} (hg : g.length = 4) (hd : g.head? = some true) (v w : Vec) :
    dsyn g v = dsyn g w ↔ polyOf g ∣ polyOf v + polyOf w := by
  have hlen : (remFixed v g).length = (remFixed w g).length := by
    rw [length_remFixed v g (by omega), length_remFixed w g (by omega)]
  have huint : uint (remFixed v g) = uint (remFixed w g) ↔ remFixed v g = remFixed w g :=
    ⟨eq_of_uint_eq hlen, congrArg uint⟩
  rw [dsyn_eq_iff hg, ← (dsyn_eq_iff hg).mp rfl, huint, ← polyOf_inj hlen, polyOf_remFixed v hd,
    polyOf_remFixed w hd, ← CharTwo.add_eq_zero, ← Polynomial.add_modByMonic,
    Polynomial.modByMonic_eq_zero_iff_dvd (monic_polyOf hd)]

theorem isCodeword_iff_dsyn_eq_zero {v : Vec} (hv : v.length = 7) :
    isCodeword v ↔ dsyn Config.hardware.g v = 0 := by
  rw [isCodeword_iff_dvd, and_iff_right hv, dsyn_eq_zero_iff_dvd rfl rfl]

/-- R133: the table lists for each syndrome the one position whose unit has it; no unit has 0. -/
theorem eq_dsyn_unitVec_iff : ∀ (k : BitVec 3) (p : Nat), p < 7 →
    (k = dsyn Config.hardware.g (unitVec p) ↔ k ≠ 0 ∧ p = (tableImage k).pos.toNat) := by
  decide

theorem tableImage_pos_lt_seven : ∀ k, (tableImage k).pos.toNat < 7 := by decide

/-- A flip reaches a codeword exactly from a nonzero syndrome and at the position in the table. -/
theorem isCodeword_flipAt_iff {v : Vec} {p : Nat} (hv : v.length = 7) (hp : p < 7) :
    isCodeword (flipAt v p) ↔ dsyn Config.hardware.g v ≠ 0 ∧
      p = (tableImage (dsyn Config.hardware.g v)).pos.toNat := by
  rw [← eq_dsyn_unitVec_iff _ p hp, dsyn_eq_dsyn_iff_dvd rfl rfl, polyOf_unitVec hp,
    isCodeword_iff_dvd, length_flipAt, and_iff_right hv, polyOf_flipAt (hp.trans_eq hv.symm), hv]

section
variable {tab : Memory} (htab : ∀ k, memRead tab k = tableImage k)
include htab

/-- With the table of R133 a decode finds no error or corrects one. -/
theorem decodeDirect_tableImage_of_ne_zero {w : Vec} (h : dsyn Config.hardware.g w ≠ 0) :
    decodeDirect Config.hardware.g tab w =
      ⟨flipAt w (tableImage (dsyn Config.hardware.g w)).pos.toNat,
        .corrected (tableImage (dsyn Config.hardware.g w)).pos,
        (dsyn Config.hardware.g w).setWidth 4⟩ := by
  rw [decodeDirect_of_valid h (by rw [htab, (tableImage_of_ne_zero _ h).1]), htab]

/-- The codeword nearest to a word is the word the direct decoder answers, and no other. -/
theorem isCodeword_and_distance_le_one_iff {v c : Vec} (hv : v.length = 7) :
    isCodeword c ∧ distance v c ≤ 1 ↔ c = (decodeDirect Config.hardware.g tab v).word := by
  have hnear : isCodeword c ∧ distance v c ≤ 1 ↔
      isCodeword c ∧ (c = v ∨ ∃ p < 7, c = flipAt v p) :=
    and_congr_right fun hc => by rw [distance_le_one_iff (hv.trans hc.1.symm), hv]
  rw [hnear]
  by_cases hk : dsyn Config.hardware.g v = 0
  · rw [decodeDirect_of_zero hk]
    constructor
    · rintro ⟨hc, rfl | ⟨p, hp, rfl⟩⟩
      · rfl
      · exact absurd hk ((isCodeword_flipAt_iff hv hp).mp hc).1
    · rintro rfl
      exact ⟨(isCodeword_iff_dsyn_eq_zero hv).mpr hk, .inl rfl⟩
  · rw [decodeDirect_tableImage_of_ne_zero htab hk]
    constructor
    · rintro ⟨hc, rfl | ⟨p, hp, rfl⟩⟩
      · exact absurd ((isCodeword_iff_dsyn_eq_zero hv).mp hc) hk
      · rw [← ((isCodeword_flipAt_iff hv hp).mp hc).2]
    · rintro rfl
      have hpos := tableImage_pos_lt_seven (dsyn Config.hardware.g v)
      exact ⟨(isCodeword_flipAt_iff hv hpos).mpr ⟨hk, rfl⟩, .inr ⟨_, hpos, rfl⟩⟩

end

/-- Settles O36: the one codeword is what the direct decoder answers with the table INIT builds. -/
theorem everyWordHasOneNearestCodeword : Obligations.EveryWordHasOneNearestCodeword := by
  intro v hv
  simp only [isCodeword_and_distance_le_one_iff memRead_buildTable_hardware hv]
  exact existsUnique_eq

/-! ### Two errors (R150) -/

/-- Two flips of a codeword give no codeword: both would be one flip from the word between them. -/
theorem not_isCodeword_flipAt_flipAt {c : Vec} {p p' : Nat} (hc : isCodeword c) (hp : p < 7)
    (hp' : p' < 7) (hne : p ≠ p') : ¬ isCodeword (flipAt (flipAt c p) p') := by
  have hlen : (flipAt c p).length = 7 := (length_flipAt c p).trans hc.1
  rw [← flipAt_flipAt_same c p, isCodeword_flipAt_iff hlen hp] at hc
  exact fun hc' => hne (hc.2.trans ((isCodeword_flipAt_iff hlen hp').mp hc').2.symm)

/-- Settles O37: the received word is no codeword, so it is corrected to the codeword next to it,
which two flips away from it cannot be. -/
theorem twoFlipsGiveAnotherCodeword : Obligations.TwoFlipsGiveAnotherCodeword := by
  intro tr s c p p' hcoherent ⟨hready, hfatal⟩ hc hp hp' hne ha
  have htab := (hcoherent.built hready).1
  have hcp : c.length = 7 := hc.1
  have hlen : s.a.length = 7 := by rw [ha, length_flipAt, length_flipAt, hcp]
  have hsyn : dsyn Config.hardware.g s.a ≠ 0 := fun hzero =>
    not_isCodeword_flipAt_flipAt hc hp hp' hne
      (ha ▸ (isCodeword_iff_dsyn_eq_zero hlen).mpr hzero)
  obtain ⟨hcode, hnear⟩ := (isCodeword_and_distance_le_one_iff htab hlen).mpr rfl
  refine ⟨_, exec_decD_of_length_eq tr hfatal hready hlen, ?corrected, rfl, hcode, ?other⟩
  case corrected =>
    exact congrArg (verdictState ·.verdict) (decodeDirect_tableImage_of_ne_zero htab hsyn)
  case other =>
    intro hq
    change (decodeDirect Config.hardware.g s.tab s.a).word = c at hq
    rw [hq, ha] at hnear
    exact not_distance_flipAt_flipAt_le_one (hp.trans_eq hcp.symm) (hp'.trans_eq hcp.symm) hne hnear

end Sys2Proof.Machine

/-! ## The LFSR decoder (45_decode_lfsr.md R161 to R172) -/

namespace Sys2Proof.Machine

/-! ### The search (R166, R167) -/

/-- The search is the first match among the step counts of the free-running register. -/
theorem locateFrom_eq_find? (lt syn : Vec) (n i : Nat) (cur : Vec) :
    locateFrom lt syn n i cur =
      ((List.range n).find? fun j => (lfree lt)^[j] cur = syn).map (· + i) := by
  induction n generalizing i cur with
  | zero => rfl
  | succ n ih =>
    rw [locateFrom, List.range_succ_eq_map]
    by_cases hcur : cur = syn
    · simp [hcur]
    · have hshift : (· + i) ∘ Nat.succ = (· + (i + 1)) :=
        funext fun j => Nat.succ_add_eq_add_succ j i
      rw [if_neg hcur, ih, List.find?_cons_of_neg, List.find?_map, Option.map_map, hshift]
      · rfl
      · exact mt of_decide_eq_true hcur

theorem locate_eq_find? (lt : Vec) (lref : BitVec 4) (syn : Vec) :
    locate lt lref syn =
      (List.range 7).find? fun i => (lfree lt)^[i] (vec lref.toNat 4) = syn := by
  simp [locate, locateFrom_eq_find?]

theorem locate_eq_some_iff {lt : Vec} {lref : BitVec 4} {syn : Vec} {i : Nat} :
    locate lt lref syn = some i ↔
      i < 7 ∧ (lfree lt)^[i] (vec lref.toNat 4) = syn ∧
        ∀ j, j < i → (lfree lt)^[j] (vec lref.toNat 4) ≠ syn := by
  simp [locate_eq_find?, List.find?_range_eq_some, and_left_comm]

theorem locate_eq_none_iff {lt : Vec} {lref : BitVec 4} {syn : Vec} :
    locate lt lref syn = none ↔ ∀ i, i < 7 → (lfree lt)^[i] (vec lref.toNat 4) ≠ syn := by
  simp [locate_eq_find?]

/-- Settles O39: the search is the first match in the range of the seven step counts. -/
theorem searchFindsFirstMatch : Obligations.SearchFindsFirstMatch :=
  fun _ _ _ => ⟨fun _ => locate_eq_some_iff, locate_eq_none_iff⟩

/-! ### Each transition of `decodeLfsr_cases`, picked by the syndrome and the search (R169) -/

section
variable {lt w : Vec} {lref : BitVec 4}

theorem decodeLfsr_of_zero (h : lsyn lt w = zeros 4) :
    decodeLfsr lt lref w = ⟨w, .noError, BitVec.ofNat 4 (uint (lsyn lt w))⟩ := by
  simpa only [h, ne_eq, not_true, true_and, false_and, exists_false, or_false]
    using decodeLfsr_cases lt lref w

theorem decodeLfsr_of_located {i : Nat} (h : lsyn lt w ≠ zeros 4)
    (hi : locate lt lref (lsyn lt w) = some i) :
    decodeLfsr lt lref w =
      ⟨flipAt w (6 - i), .corrected (BitVec.ofNat 3 (6 - i)),
        BitVec.ofNat 4 (uint (lsyn lt w))⟩ := by
  simpa only [ne_eq, h, hi, not_false_eq_true, true_and, false_and, false_or, or_false,
    Option.some.injEq, exists_eq_left', reduceCtorEq] using decodeLfsr_cases lt lref w

theorem decodeLfsr_of_not_located (h : lsyn lt w ≠ zeros 4)
    (hnone : locate lt lref (lsyn lt w) = none) :
    decodeLfsr lt lref w = ⟨w, .uncorrectable, BitVec.ofNat 4 (uint (lsyn lt w))⟩ := by
  simpa only [ne_eq, h, hnone, not_false_eq_true, true_and, false_and, false_or, exists_false,
    reduceCtorEq] using decodeLfsr_cases lt lref w

end

/-- Whatever the transition, SYN is the number of the LFSR syndrome (R28). -/
theorem syndrome_decodeLfsr (lt : Vec) (lref : BitVec 4) (w : Vec) :
    (decodeLfsr lt lref w).syndrome = BitVec.ofNat 4 (uint (lsyn lt w)) := by
  obtain ⟨-, hd⟩ | ⟨_, -, -, hd⟩ | ⟨-, -, hd⟩ := decodeLfsr_cases lt lref w <;> rw [hd]

/-- Four bits hold the number of a register state. -/
theorem toNat_ofNat_uint_lsyn (lt w : Vec) :
    (BitVec.ofNat 4 (uint (lsyn lt w))).toNat = uint (lsyn lt w) := by
  rw [BitVec.toNat_ofNat, Nat.mod_eq_of_lt]
  simpa only [length_lsyn] using uint_lt_two_pow (lsyn lt w)

/-- Three bits hold the position of a step count (R168). -/
theorem toNat_ofNat_six_sub (i : Nat) : (BitVec.ofNat 3 (6 - i)).toNat = 6 - i := by
  rw [BitVec.toNat_ofNat]
  omega

/-! ### DEC.L (R170) -/

/-- Past its tests DEC.L completes. -/
theorem exec_decL_of_length_eq (tr : Bool) {s : State} (hfatal : s.fatal = false)
    (hready : s.ready = true) (hlen : s.a.length = 7) :
    exec (.decL tr) s = .next (complete (effect (.decL tr) s)) :=
  exec_of_raised_none (codecCheck_eq_none_iff.mpr ⟨hfatal, hready, hlen⟩)

/-- Settles O38: the tests in the order of R170, then the transitions of R169 one by one. -/
theorem decLDecodesBySearch : Obligations.DecLDecodesBySearch := by
  refine fun tr s => ⟨fun hfatal => ?fatal, fun hfatal hready => ?notReady,
    fun hfatal hready hlen => ?length, fun hfatal hready hlen => ?decodes⟩
  case fatal => exact exec_of_raised_some (i := .decL tr) (codecCheck_of_fatal hfatal)
  case notReady => exact exec_of_raised_some (i := .decL tr) (codecCheck_of_not_ready hfatal hready)
  case length =>
    exact exec_of_raised_some (i := .decL tr) (codecCheck_of_length_ne hfatal hready hlen)
  case decodes =>
    refine ⟨lsyn Config.hardware.lt s.a, (decodeLfsr Config.hardware.lt s.lref s.a).syndrome,
      (decodeLfsr Config.hardware.lt s.lref s.a).word,
      verdictState (decodeLfsr Config.hardware.lt s.lref s.a).verdict,
      verdictPos (decodeLfsr Config.hardware.lt s.lref s.a).verdict,
      exec_decL_of_length_eq tr hfatal hready hlen, rfl, ?syndrome,
      (length_decodeLfsr _ _ _).trans hlen, fun hzero => ?noError, fun hne hnone => ?uncorrectable,
      fun i hne hi => ?corrected⟩
    case syndrome => rw [syndrome_decodeLfsr, toNat_ofNat_uint_lsyn]
    case noError =>
      rw [decodeLfsr_of_zero hzero]
      exact ⟨rfl, rfl, rfl⟩
    case uncorrectable =>
      rw [decodeLfsr_of_not_located hne hnone]
      exact ⟨rfl, rfl, rfl⟩
    case corrected =>
      rw [decodeLfsr_of_located hne hi]
      exact ⟨fun j hj => bitAt_flipAt _ _ _ (hj.trans_eq hlen.symm), rfl, toNat_ofNat_six_sub i⟩

/-! ### The syndrome as a remainder under this hardware's taps (R163, R164) -/

section
open Polynomial

/-- A common factor x comes out of a remainder. -/
theorem X_mul_modByMonic_X_mul (p : (ZMod 2)[X]) {q : (ZMod 2)[X]} (hq : q.Monic) :
    (X * p) %ₘ (X * q) = X * (p %ₘ q) := by
  refine (div_modByMonic_unique (p /ₘ q) _ (monic_X.mul hq) ⟨?_, ?_⟩).2
  · rw [mul_assoc, ← mul_add, modByMonic_add_div]
  · rw [degree_mul, degree_mul]
    exact WithBot.add_lt_add_left (by simp) (degree_modByMonic_lt p hq)

/-- R163 for LT(x) = x·G(x). -/
theorem polyOf_lsyn_hardware (v : Vec) :
    polyOf (lsyn Config.hardware.lt v) =
      X * ((X ^ 3 * polyOf v) %ₘ polyOf Config.hardware.g) := by
  rw [polyOf_lsyn rfl rfl, polyOf_hardware_lt, pow_succ', mul_assoc,
    X_mul_modByMonic_X_mul _ (monic_polyOf rfl)]

/-- Settles O40: any taps by the long division, this hardware's by the factor x of LT(x). -/
theorem lfsrComputesPolynomialRemainder : Obligations.LfsrComputesPolynomialRemainder :=
  ⟨fun _ _ b hlt hd hr => polyOf_lstep b hlt hd hr, fun _ v hlt hd _ => polyOf_lsyn hlt hd v,
    polyOf_hardware_lt, fun v _ => polyOf_lsyn_hardware v⟩

/-- R164: the two vectors of four bits stand for one polynomial. -/
theorem lsyn_hardware_eq_remFixed_append (v : Vec) :
    lsyn Config.hardware.lt v = remFixed (v ++ zeros 3) Config.hardware.g ++ [false] := by
  refine eq_of_polyOf_eq ?_ ?_
  · rw [length_lsyn, List.length_append, length_remFixed _ _ (by decide)]
    rfl
  · rw [polyOf_lsyn_hardware, polyOf_append, polyOf_remFixed _ rfl, polyOf_append, polyOf_zeros,
      polyOf_false_cons, polyOf_nil, length_zeros, List.length_singleton]
    ring_nf

end

/-- R164: the last stage is 0, so the number is even. -/
theorem uint_mem_evens {r : Vec} (hlen : r.length = 4) (hlast : bitAt r 3 = false) :
    uint r ∈ [0, 2, 4, 6, 8, 10, 12, 14] := by
  match r, hlen with
  | [r0, r1, r2, r3], _ =>
    obtain rfl : r3 = false := hlast
    revert r0 r1 r2
    decide

/-- The two syndromes are zero on the same words: the multiples of G (R164). -/
theorem lsyn_hardware_eq_zeros_iff_remFixed (v : Vec) :
    lsyn Config.hardware.lt v = zeros 4 ↔ uint (remFixed v Config.hardware.g) = 0 := by
  rw [lsyn_hardware_eq_zeros_iff, uint_eq_zero_iff, length_remFixed _ _ (by decide),
    remFixed_eq_zeros_iff_dvd v rfl]

/-- Settles O41, claim by claim of R164. -/
theorem lfsrSyndromeIsShiftedRemainder : Obligations.LfsrSyndromeIsShiftedRemainder :=
  fun v _ => ⟨lsyn_hardware_eq_remFixed_append v, bitAt_lsyn_hardware v,
    uint_mem_evens (length_lsyn _ v) (bitAt_lsyn_hardware v),
    lsyn_hardware_eq_zeros_iff_remFixed v⟩

/-! ### The orbit of the reference (R165, R171) -/

/-- The register state whose number is the reference 6. -/
theorem vec_reference : vec (6 : BitVec 4).toNat 4 = [false, true, true, false] := by decide

/-- Seven free-running steps lead from the reference back to it. -/
theorem isPeriodicPt_reference :
    Function.IsPeriodicPt (lfree Config.hardware.lt) 7 [false, true, true, false] := by
  decide

/-- The seven states from the reference are all the nonzero states with last stage 0. -/
theorem exists_iterate_lfree_eq_lsyn {v : Vec} (hne : lsyn Config.hardware.lt v ≠ zeros 4) :
    ∃ i, i < 7 ∧ lsyn Config.hardware.lt v =
      (lfree Config.hardware.lt)^[i] [false, true, true, false] := by
  obtain ⟨i, hi⟩ := Option.ne_none_iff_exists'.mp
    (locate_hardware_ne_none (length_lsyn _ v) (bitAt_lsyn_hardware v) hne)
  obtain ⟨hlt, hstate, -⟩ := locate_eq_some_iff.mp hi
  exact ⟨i, hlt, vec_reference ▸ hstate.symm⟩

/-- Settles O42: the two lists and the seven single-bit errors by evaluation, every later step count
by the period, every other word by the search. -/
theorem referenceOrbit : Obligations.ReferenceOrbit :=
  ⟨by decide, by decide, fun i => (isPeriodicPt_reference.iterate_mod_apply i).symm, by decide,
    fun _ _ hne => exists_iterate_lfree_eq_lsyn hne⟩

/-! ### The search on this hardware (R172) -/

/-- The free-running register shifts a 0 into its last stage: LT ends with 0 (R166). -/
theorem bitAt_lfree_hardware (r : Vec) : bitAt (lfree Config.hardware.lt r) 3 = false :=
  Bool.and_false _

/-- No state from the reference has its last stage set. -/
theorem bitAt_iterate_lfree_hardware (i : Nat) :
    bitAt ((lfree Config.hardware.lt)^[i] [false, true, true, false]) 3 = false := by
  cases i with
  | zero => rfl
  | succ i => rw [Function.iterate_succ_apply', bitAt_lfree_hardware]

theorem locate_hardware_eq_none {r : Vec} (hlast : bitAt r 3 = true) :
    locate Config.hardware.lt 6 r = none := by
  refine locate_eq_none_iff.mpr fun i _ hstate => ?_
  rw [← hstate, vec_reference, bitAt_iterate_lfree_hardware] at hlast
  exact Bool.false_ne_true hlast

/-- Every command keeps the invariant, refused or completed. -/
theorem State.Coherent.exec {s t : State} (h : s.Coherent) {i : Instr}
    (hexec : exec i s = .next t) : t.Coherent := by
  obtain ⟨e, -, rfl⟩ | ⟨hnone, rfl⟩ := exec_cases hexec
  · exact h.raise e
  · exact (h.effect hnone).complete

/-- The status fields of a coherent state agree, which excludes Uncorrectable. -/
theorem State.Coherent.outcome_ne_uncorrectable {s : State} (h : s.Coherent) :
    s.outcome ≠ .uncorrectable := by
  intro houtcome
  have hfields := h.fieldsAgree
  rwa [houtcome] at hfields

/-- Settles O43: the search finds every nonzero state with last stage 0 and none with last stage 1;
DEC.L keeps the invariant, whose outcomes do not include Uncorrectable. -/
theorem searchResolvesEverySyndrome : Obligations.SearchResolvesEverySyndrome :=
  ⟨fun v _ => locate_hardware_ne_none (length_lsyn _ v) (bitAt_lsyn_hardware v),
    fun _ _ _ hcoherent _ hexec => (hcoherent.exec hexec).outcome_ne_uncorrectable,
    fun _ _ => locate_hardware_eq_none⟩

end Sys2Proof.Machine

/-! ## The required properties of the two decoders (46_required_properties.md R186 to R192) -/

namespace Sys2Proof.Machine

/-! ### The two syndromes of a word (R164, R187) -/

/-- The LFSR syndrome tells two words apart exactly when the direct syndrome does. -/
theorem lsyn_hardware_eq_lsyn_iff_dsyn (v w : Vec) :
    lsyn Config.hardware.lt v = lsyn Config.hardware.lt w ↔
      dsyn Config.hardware.g v = dsyn Config.hardware.g w := by
  have hlen : (lsyn Config.hardware.lt v).length = (lsyn Config.hardware.lt w).length := by
    rw [length_lsyn, length_lsyn]
  rw [dsyn_eq_dsyn_iff_dvd rfl rfl, ← polyOf_inj hlen, polyOf_lsyn_hardware, polyOf_lsyn_hardware,
    mul_right_inj' Polynomial.X_ne_zero, ← CharTwo.add_eq_zero, ← Polynomial.add_modByMonic,
    Polynomial.modByMonic_eq_zero_iff_dvd (monic_polyOf rfl), ← mul_add]
  exact ⟨isCoprime_hardware_g_X.pow_right.dvd_of_dvd_mul_left, fun h => h.mul_left _⟩

section
variable {c : Vec} {p : Nat} (hc : isCodeword c) (hp : p < 7)
include hc hp

/-- A single error leaves the syndrome of its position, whatever the codeword. -/
theorem dsyn_flipAt_of_isCodeword :
    dsyn Config.hardware.g (flipAt c p) = dsyn Config.hardware.g (unitVec p) := by
  have hlen : (flipAt c p).length = 7 := (length_flipAt c p).trans hc.1
  have hback : isCodeword (flipAt (flipAt c p) p) := by rwa [flipAt_flipAt_same]
  exact (eq_dsyn_unitVec_iff _ p hp).mpr ((isCodeword_flipAt_iff hlen hp).mp hback)

theorem lsyn_flipAt_of_isCodeword :
    lsyn Config.hardware.lt (flipAt c p) = lsyn Config.hardware.lt (unitVec p) :=
  (lsyn_hardware_eq_lsyn_iff_dsyn _ _).mpr (dsyn_flipAt_of_isCodeword hc hp)

end

/-- The code is perfect (R149): a word is a codeword or a single error away from one. -/
theorem isCodeword_or_eq_flipAt {w : Vec} (hw : w.length = 7) :
    isCodeword w ∨ ∃ c p, isCodeword c ∧ p < 7 ∧ w = flipAt c p := by
  obtain ⟨c, ⟨hc, hnear⟩, -⟩ := everyWordHasOneNearestCodeword w hw
  obtain rfl | ⟨p, hp, rfl⟩ := (distance_le_one_iff (hw.trans hc.1.symm)).mp hnear
  · exact .inl hc
  · exact .inr ⟨_, p, hc, hp.trans_eq hw, (flipAt_flipAt_same w p).symm⟩

theorem distance_flipAt {w : Vec} {p : Nat} (hp : p < w.length) : distance w (flipAt w p) = 1 := by
  have hlen : w.length = (flipAt w p).length := (length_flipAt w p).symm
  have hle : distance w (flipAt w p) ≤ 1 := (distance_le_one_iff hlen).mpr (.inr ⟨p, hp, rfl⟩)
  have hne : distance w (flipAt w p) ≠ 0 := fun hzero => by
    have hbit := congrArg (bitAt · p) ((distance_eq_zero_iff hlen).mp hzero)
    simp [bitAt_flipAt w p p hp] at hbit
  omega

/-- The syndrome of a unit error at `p` is met `6 - p` steps from the reference (R168, R171). -/
theorem locate_lsyn_unitVec : ∀ p < 7, lsyn Config.hardware.lt (unitVec p) ≠ zeros 4 ∧
    locate Config.hardware.lt 6 (lsyn Config.hardware.lt (unitVec p)) = some (6 - p) := by
  decide

/-- Three bits hold a position (R27). -/
theorem toNat_ofNat_position {p : Nat} (hp : p < 7) : (BitVec.ofNat 3 p).toNat = p := by
  rw [BitVec.toNat_ofNat]
  omega

/-! ### What each decoder answers to a codeword and to a single error (R186, R187) -/

section
variable {c : Vec} (hc : isCodeword c)
include hc

theorem decodeDirect_of_isCodeword (tab : Memory) :
    decodeDirect Config.hardware.g tab c = ⟨c, .noError, 0⟩ :=
  decodeDirect_of_zero ((isCodeword_iff_dsyn_eq_zero hc.1).mp hc)

theorem decodeLfsr_of_isCodeword (lref : BitVec 4) :
    decodeLfsr Config.hardware.lt lref c = ⟨c, .noError, 0⟩ := by
  have hzero := (lsyn_hardware_eq_zeros_iff c).mpr ((isCodeword_iff_dvd c).mp hc).2
  rw [decodeLfsr_of_zero hzero, hzero]
  rfl

variable {p : Nat} (hp : p < 7)
include hp

theorem decodeDirect_flipAt {tab : Memory} (htab : ∀ k, memRead tab k = tableImage k) :
    decodeDirect Config.hardware.g tab (flipAt c p) =
      ⟨c, .corrected (BitVec.ofNat 3 p), (dsyn Config.hardware.g (unitVec p)).setWidth 4⟩ := by
  obtain ⟨hne, hpos⟩ := (eq_dsyn_unitVec_iff _ p hp).mp (dsyn_flipAt_of_isCodeword hc hp)
  have hentry := BitVec.eq_of_toNat_eq ((toNat_ofNat_position hp).trans hpos)
  rw [decodeDirect_tableImage_of_ne_zero htab hne, ← hpos, ← hentry, flipAt_flipAt_same,
    dsyn_flipAt_of_isCodeword hc hp]

theorem decodeLfsr_flipAt :
    decodeLfsr Config.hardware.lt 6 (flipAt c p) =
      ⟨c, .corrected (BitVec.ofNat 3 p),
        BitVec.ofNat 4 (uint (lsyn Config.hardware.lt (unitVec p)))⟩ := by
  have hsyn := lsyn_flipAt_of_isCodeword hc hp
  obtain ⟨hne, hlocated⟩ := locate_lsyn_unitVec p hp
  rw [← hsyn] at hne hlocated
  rw [decodeLfsr_of_located hne hlocated, hsyn, Nat.sub_sub_self (Nat.le_of_lt_succ hp),
    flipAt_flipAt_same]

end

/-! ### DEC.D and DEC.L once construction has succeeded (R148) -/

section
variable {s : State} {d : Decoded} (hconstructed : s.constructed) (hlen : s.a.length = 7)
include hconstructed hlen

theorem exec_decD_eq_writeDecoded (tr : Bool)
    (hd : decodeDirect Config.hardware.g s.tab s.a = d) :
    exec (.decD tr) s =
      .next (complete (writeDecoded d (emit tr (remTrace s.a Config.hardware.g) s))) := by
  rw [exec_decD_of_length_eq tr hconstructed.2 hconstructed.1 hlen, ← hd]
  rfl

theorem exec_decL_eq_writeDecoded (tr : Bool)
    (hd : decodeLfsr Config.hardware.lt s.lref s.a = d) :
    exec (.decL tr) s = .next (complete (writeDecoded d s)) := by
  rw [exec_decL_of_length_eq tr hconstructed.2 hconstructed.1 hlen, ← hd]
  rfl

end

section
variable {s : State} {c : Vec}

/-- A codeword is returned as it is by both commands (R186). -/
theorem exec_decodes_isCodeword (tr tr' : Bool) (hconstructed : s.constructed)
    (hc : isCodeword s.a) :
    exec (.decD tr) s = .next (complete (writeDecoded ⟨s.a, .noError, 0⟩
      (emit tr (remTrace s.a Config.hardware.g) s))) ∧
    exec (.decL tr') s = .next (complete (writeDecoded ⟨s.a, .noError, 0⟩ s)) :=
  ⟨exec_decD_eq_writeDecoded hconstructed hc.1 tr (decodeDirect_of_isCodeword hc _),
    exec_decL_eq_writeDecoded hconstructed hc.1 tr' (decodeLfsr_of_isCodeword hc _)⟩

/-- A single error is undone by both commands (R187), each with its own syndrome (R28). -/
theorem exec_decodes_flipAt (tr tr' : Bool) (hcoherent : s.Coherent)
    (hconstructed : s.constructed) (hc : isCodeword c) {p : Nat} (hp : p < 7)
    (ha : s.a = flipAt c p) :
    exec (.decD tr) s = .next (complete (writeDecoded
      ⟨c, .corrected (BitVec.ofNat 3 p), (dsyn Config.hardware.g (unitVec p)).setWidth 4⟩
      (emit tr (remTrace s.a Config.hardware.g) s))) ∧
    exec (.decL tr') s = .next (complete (writeDecoded
      ⟨c, .corrected (BitVec.ofNat 3 p),
        BitVec.ofNat 4 (uint (lsyn Config.hardware.lt (unitVec p)))⟩ s)) := by
  obtain ⟨htab, hlref⟩ := hcoherent.built hconstructed.1
  have hlen : s.a.length = 7 := by rw [ha, length_flipAt, hc.1]; rfl
  refine ⟨exec_decD_eq_writeDecoded hconstructed hlen tr ?_,
    exec_decL_eq_writeDecoded hconstructed hlen tr' ?_⟩
  · rw [ha, decodeDirect_flipAt hc hp htab]
  · rw [ha, hlref, decodeLfsr_flipAt hc hp]

end

/-- For each single error the two syndromes are nonzero and differ (R28; 95_test_vectors.md
section 2.8). -/
theorem syndromes_unitVec_differ : ∀ p < 7,
    (dsyn Config.hardware.g (unitVec p)).setWidth 4 ≠ 0 ∧
    BitVec.ofNat 4 (uint (lsyn Config.hardware.lt (unitVec p))) ≠ 0 ∧
    (dsyn Config.hardware.g (unitVec p)).setWidth 4 ≠
      BitVec.ofNat 4 (uint (lsyn Config.hardware.lt (unitVec p))) := by
  decide

/-! ### The four properties -/

/-- Settles O45: an encoded word is a codeword, and both decoders return a codeword as it is. -/
theorem decodeOfEncodeFindsNoError : Obligations.DecodeOfEncodeFindsNoError := by
  intro tr tr' s d _ hconstructed hd ha
  have hc : isCodeword s.a := ha ▸ isCodeword_encodeWord hd
  obtain ⟨hdirect, hlfsr⟩ := exec_decodes_isCodeword tr tr' hconstructed hc
  exact ⟨_, _, hdirect, hlfsr, rfl, rfl, rfl, rfl, rfl, rfl, rfl, rfl, rfl, rfl⟩

/-- Settles O46: an encoded word is a codeword, and both decoders undo a single error in one. -/
theorem singleErrorIsCorrected : Obligations.SingleErrorIsCorrected := by
  intro tr tr' s d p hcoherent hconstructed hd hp ha
  obtain ⟨hdirect, hlfsr⟩ :=
    exec_decodes_flipAt tr tr' hcoherent hconstructed (isCodeword_encodeWord hd) hp ha
  have hpos := toNat_ofNat_position hp
  exact ⟨_, _, hdirect, hlfsr, rfl, rfl, hpos, rfl, rfl, rfl, hpos, rfl⟩

/-- Settles O47: every word is a codeword or a single error away from one. -/
theorem strategiesAgreeOnEveryWord : Obligations.StrategiesAgreeOnEveryWord := by
  intro tr tr' s hcoherent hconstructed hlen
  obtain hc | ⟨c, p, hc, hp, ha⟩ := isCodeword_or_eq_flipAt hlen
  · obtain ⟨hdirect, hlfsr⟩ := exec_decodes_isCodeword tr tr' hconstructed hc
    exact ⟨_, _, hdirect, hlfsr, rfl, rfl, rfl, rfl, rfl, nofun, fun _ => ⟨rfl, rfl⟩, nofun⟩
  · obtain ⟨hdirect, hlfsr⟩ := exec_decodes_flipAt tr tr' hcoherent hconstructed hc hp ha
    exact ⟨_, _, hdirect, hlfsr, rfl, rfl, rfl, rfl, rfl, nofun, nofun,
      fun _ => syndromes_unitVec_differ p hp⟩

/-- R192 of an answer to the word `w`, in what it writes to Q, OUTCOME and POS. -/
def Decoded.FlipsAtMostOne (w : Vec) (d : Decoded) : Prop :=
  (verdictState d.verdict = .corrected ∧ (verdictPos d.verdict).toNat ≤ 6 ∧
    d.word = flipAt w (verdictPos d.verdict).toNat ∧ distance w d.word = 1) ∨
  ((verdictState d.verdict = .noError ∨ verdictState d.verdict = .uncorrectable) ∧
    verdictPos d.verdict = 7 ∧ d.word = w)

theorem Decoded.flipsAtMostOne_noError (w : Vec) (y : BitVec 4) :
    FlipsAtMostOne w ⟨w, .noError, y⟩ :=
  .inr ⟨.inl rfl, rfl, rfl⟩

/-- The answer that undoes the single error of a word. -/
theorem Decoded.flipsAtMostOne_corrected {c : Vec} {p : Nat} (hlen : c.length = 7) (hp : p < 7)
    (y : BitVec 4) : FlipsAtMostOne (flipAt c p) ⟨c, .corrected (BitVec.ofNat 3 p), y⟩ := by
  have hpos := toNat_ofNat_position hp
  have hdistance : distance (flipAt c p) (flipAt (flipAt c p) p) = 1 :=
    distance_flipAt (by rwa [length_flipAt, hlen])
  refine .inl ⟨rfl, hpos.trans_le (Nat.le_of_lt_succ hp), ?_, ?_⟩
  · rw [verdictPos, hpos, flipAt_flipAt_same]
  · rwa [flipAt_flipAt_same] at hdistance

theorem decodes_flipsAtMostOne {w : Vec} {tab : Memory} (htab : ∀ k, memRead tab k = tableImage k)
    (hw : w.length = 7) :
    (decodeDirect Config.hardware.g tab w).FlipsAtMostOne w ∧
      (decodeLfsr Config.hardware.lt 6 w).FlipsAtMostOne w := by
  obtain hc | ⟨c, p, hc, hp, rfl⟩ := isCodeword_or_eq_flipAt hw
  · rw [decodeDirect_of_isCodeword hc, decodeLfsr_of_isCodeword hc]
    exact ⟨Decoded.flipsAtMostOne_noError w 0, Decoded.flipsAtMostOne_noError w 0⟩
  · rw [decodeDirect_flipAt hc hp htab, decodeLfsr_flipAt hc hp]
    exact ⟨Decoded.flipsAtMostOne_corrected hc.1 hp _, Decoded.flipsAtMostOne_corrected hc.1 hp _⟩

/-- Settles O48: each command writes its decoder's answer and keeps A. -/
theorem decodeFlipsAtMostOneBit : Obligations.DecodeFlipsAtMostOneBit := by
  intro tr s t i hcoherent hconstructed hlen hi hexec
  obtain ⟨htab, hlref⟩ := hcoherent.built hconstructed.1
  obtain ⟨hdirect, hlfsr⟩ := decodes_flipsAtMostOne htab hlen
  rw [← hlref] at hlfsr
  obtain rfl | rfl := hi
  · cases (exec_decD_eq_writeDecoded hconstructed hlen tr rfl).symm.trans hexec
    exact ⟨(length_decodeDirect _ _ _).trans hlen, rfl, hdirect⟩
  · cases (exec_decL_eq_writeDecoded hconstructed hlen tr rfl).symm.trans hexec
    exact ⟨(length_decodeLfsr _ _ _).trans hlen, rfl, hlfsr⟩

end Sys2Proof.Machine

/-! ## Fatal lock, reset and waiting (60_exceptions.md R205; 70_reset_and_hazards.md R215, R230) -/

namespace Sys2Proof.Machine

/-! ### What FATAL does not lock (R205) -/

section
variable {i : Instr}
  (hi : (∃ len bits, i = .lda len bits ∨ i = .ldb len bits) ∨ ∃ tr, i = .remF tr ∨ i = .remT tr)
include hi

/-- The tests of a load or a REM do not read FATAL. -/
theorem raised_withFatal (f : Bool) (s : State) : raised i { s with fatal := f } = raised i s := by
  obtain ⟨len, bits, rfl | rfl⟩ | ⟨tr, rfl | rfl⟩ := hi <;> rfl

/-- The effect of a load or a REM neither reads FATAL nor writes it. -/
theorem effect_withFatal (f : Bool) (s : State) :
    effect i { s with fatal := f } = { effect i s with fatal := f } := by
  obtain ⟨len, bits, rfl | rfl⟩ | ⟨tr, rfl | rfl⟩ := hi <;> rfl

/-- A load or a REM does the same under either value of FATAL, and keeps it. -/
theorem exec_withFatal {s t : State} (h : exec i s = .next t) (f : Bool) :
    exec i { s with fatal := f } = .next { t with fatal := f } := by
  rw [exec_eq, raised_withFatal hi, effect_withFatal hi]
  obtain ⟨e, he, rfl⟩ | ⟨hnone, rfl⟩ := exec_cases h
  · rw [he]
    rfl
  · rw [hnone]
    rfl

end

/-! ### What clears FATAL (R205) -/

/-- A step that is no reset keeps FATAL: no refusal and no effect writes it. -/
theorem fatal_of_step {s t : State} (hreset : s.host.head? ≠ some .reset)
    (hstep : step s = .next t) : t.fatal = s.fatal := by
  obtain ⟨-, rfl⟩ | ⟨cw, rest, e, -, rfl⟩ | ⟨cw, rest, i, -, -, rfl⟩ | ⟨rest, hhost, -⟩ :=
    step_effect_cases hstep
  · rfl
  · rfl
  · exact effect_fatal i { s with host := rest }
  · exact absurd (by rw [hhost]; rfl) hreset

/-- Settles O50: FATAL is the first test of the four locked commands, the other four do not read it,
and no step but a reset writes it. -/
theorem fatalLocksEncodeDecodeInit : Obligations.FatalLocksEncodeDecodeInit := by
  refine fun s hfatal => ⟨fun tr => ⟨?enc, ?decD, ?decL⟩, ?init, fun i t hi h => ?unlocked,
    fun t hreset hstep => (fatal_of_step hreset hstep).trans hfatal⟩
  case enc => exact exec_of_raised_some (i := .enc tr) (codecCheck_of_fatal hfatal)
  case decD => exact exec_of_raised_some (i := .decD tr) (codecCheck_of_fatal hfatal)
  case decL => exact exec_of_raised_some (i := .decL tr) (codecCheck_of_fatal hfatal)
  case init => exact exec_of_raised_some (i := .init) (initCheck_of_fatal hfatal)
  case unlocked =>
    have hset : { s with fatal := true } = s := by rw [← hfatal]
    exact (congrArg (exec i) hset).symm.trans (exec_withFatal hi h true)

/-! ### A step by the host's next action (R215, R230) -/

section
variable {s : State}

/-- A step with a reset pending asserts it. -/
theorem step_of_reset {rest : List HostAction} (h : s.host = .reset :: rest) :
    step s = .next (assertReset { s with host := rest }) := by
  simp [step, h]

/-- A step with nothing pending waits. -/
theorem step_of_host_nil (h : s.host = []) : step s = .next s := by
  simp [step, h, idle]

end

/-- Every command word has a next state, refused or not. -/
theorem exists_acceptWord_eq_next (cw : CommandWord) (s : State) :
    ∃ t, acceptWord cw s = .next t := by
  cases h : decode cw with
  | ok i => exact ⟨_, by rw [acceptWord, h]; exact exec_eq i s⟩
  | error reject =>
    cases reject
    exact ⟨_, acceptWord_of_illegal h s⟩

/-- Settles O8: the step with an empty list of actions. -/
theorem idleCoreKeepsState : Obligations.IdleCoreKeepsState := fun _ => step_of_host_nil

/-- Settles O9, by the host's next action. -/
theorem everyStepAnswersNext : Obligations.EveryStepAnswersNext := by
  intro s
  cases hhost : s.host with
  | nil => exact ⟨s, step_of_host_nil hhost⟩
  | cons action rest =>
    cases action with
    | issue cw =>
      rw [step_of_issue hhost]
      exact exists_acceptWord_eq_next cw _
    | reset => exact ⟨_, step_of_reset hhost⟩

/-- Settles O7: a reset writes R38's column, and its table has no valid entry. -/
theorem resetActionRestoresRegisters : Obligations.ResetActionRestoresRegisters := fun _ _ hhost =>
  ⟨_, step_of_reset hhost, rfl, rfl, rfl, rfl, rfl, rfl, rfl, rfl, rfl, memRead_nil, rfl, rfl, rfl⟩

end Sys2Proof.Machine
